-- ==== Sys2Proof/Word.lean ====
section
/-! DEFINITION. The widths of the block (spec/00_scope.md R8): a 32-bit word for every register and bus datum, an
8-bit packed byte, a 20-bit bus offset, and the names of the four vector registers. -/

namespace Sys2Proof

/-- Every register, every bus datum, a command word and a code-point word are 32 bits (R8). -/
abbrev Word := BitVec 32

/-- A packed byte: eight consecutive elements of a vector register (R46). -/
abbrev Byte := BitVec 8

/-- A byte offset on the host bus (R8, R36). -/
abbrev Offset := BitVec 20

/-- The four vector registers (R16). -/
inductive VReg
  | v0
  | v1
  | v2
  | v3
  deriving DecidableEq, Repr

end Sys2Proof
end

