-- ==== Sys2Proof/Syntax.lean ====
section
/-! DEFINITION. The command set: one constructor per row of spec/opcode_table.json (spec/30_encoding.md R58, R63). -/

namespace Sys2Proof

/-- A legal command of the block, operands in the assembler's order (R63). -/
inductive Instr
  /-- `ENCODE Vd` (R72). -/
  | encode (d : VReg)
  /-- `DECODE Va` (R74). -/
  | decode (a : VReg)
  /-- `KEYGEN Vd` (R81). -/
  | keygen (d : VReg)
  /-- `XOR Vd, Va, Vb` (R89). -/
  | xor (d a b : VReg)
  deriving DecidableEq, Repr

end Sys2Proof
end

