-- ==== Sys2Proof/Decode.lean ====
section
/-! DEFINITION. The command word: its fields (spec/30_encoding.md R56, R57), the decoder (R59), total on every word and
rejecting by the name of R60's clause, and after it the encoder (R63). -/

namespace Sys2Proof

/-- Why a word is illegal, one name per clause of R60. -/
inductive Illegal
  /-- R60 (a): OP is 0x0 or 0x5 to 0xF. -/
  | reservedOpcode
  /-- R60 (b): a bit of RSV [31:10] is 1. -/
  | reservedBits
  /-- R60 (c): an operand field the opcode does not use is nonzero. -/
  | unusedField
  deriving DecidableEq, Repr

/-- The vector register a 2-bit index names (R57). -/
def VReg.ofBits (b : BitVec 2) : VReg :=
  if b = 0 then .v0 else if b = 1 then .v1 else if b = 2 then .v2 else .v3

/-- OP = w[3:0] (R57). -/
def fieldOp (w : Word) : BitVec 4 := w.extractLsb' 0 4

/-- VD = w[5:4] (R57). -/
def fieldVd (w : Word) : BitVec 2 := w.extractLsb' 4 2

/-- VA = w[7:6] (R57). -/
def fieldVa (w : Word) : BitVec 2 := w.extractLsb' 6 2

/-- VB = w[9:8] (R57). -/
def fieldVb (w : Word) : BitVec 2 := w.extractLsb' 8 2

/-- RSV = w[31:10] (R56). -/
def fieldRsv (w : Word) : BitVec 22 := w.extractLsb' 10 22

/-- The decode function of R59, total on every 32-bit word. -/
def decodeWord (w : Word) : Except Illegal Instr :=
  if fieldRsv w ≠ 0 then .error .reservedBits
  else if fieldOp w = 0x1 then
    if fieldVa w = 0 ∧ fieldVb w = 0 then .ok (.encode (VReg.ofBits (fieldVd w))) else .error .unusedField
  else if fieldOp w = 0x2 then
    if fieldVb w = 0 ∧ fieldVd w = 0 then .ok (.decode (VReg.ofBits (fieldVa w))) else .error .unusedField
  else if fieldOp w = 0x3 then
    if fieldVa w = 0 ∧ fieldVb w = 0 then .ok (.keygen (VReg.ofBits (fieldVd w))) else .error .unusedField
  else if fieldOp w = 0x4 then
    .ok (.xor (VReg.ofBits (fieldVd w)) (VReg.ofBits (fieldVa w)) (VReg.ofBits (fieldVb w)))
  else .error .reservedOpcode

/-- What the decoder reads from a word numbered as spec/opcode_table.json numbers it. A command is exactly one 32-bit
word (R61), so the bits above `nbits` are 0 and there is nothing to lay out. -/
def decodeTableWord (nbits w : Nat) : Option Instr :=
  (decodeWord (BitVec.ofNat 32 (w % 2 ^ nbits))).toOption

/-- The 2-bit index of a vector register (R57). -/
def VReg.bits : VReg → BitVec 2
  | .v0 => 0
  | .v1 => 1
  | .v2 => 2
  | .v3 => 3

/-- The word with the fields of R56. -/
def packFields (op : BitVec 4) (vd va vb : BitVec 2) (rsv : BitVec 22) : Word :=
  rsv ++ vb ++ va ++ vd ++ op

/-- The command word of an instruction (R58, R63). -/
def encodeWord : Instr → Word
  | .encode d => packFields 0x1 d.bits 0 0 0
  | .decode a => packFields 0x2 0 a.bits 0 0
  | .keygen d => packFields 0x3 d.bits 0 0 0
  | .xor d a b => packFields 0x4 d.bits a.bits b.bits 0

/-- The match value of the instruction's row (R58). -/
def rowMatch : Instr → Word
  | .encode _ => 0x00000001
  | .decode _ => 0x00000002
  | .keygen _ => 0x00000003
  | .xor _ _ _ => 0x00000004

/-- The mask of the instruction's row (R58). -/
def rowMask : Instr → Word
  | .encode _ => 0xFFFFFFCF
  | .decode _ => 0xFFFFFF3F
  | .keygen _ => 0xFFFFFFCF
  | .xor _ _ _ => 0xFFFFFC0F

end Sys2Proof
end

