-- ==== Sys2Proof/Config.lean ====
section
/-! DEFINITION. What an implementation fixes (spec/00_scope.md R5 to R7) and the one free value of the model: the
bits of the draws of an entropy source that no harness drives (spec/41_keygen.md R82). -/

namespace Sys2Proof

/-- The open parameters of the block: `nmax` is NMAX (R5), `entW` is ENT_W (R7). -/
structure Config where
  nmax : Nat
  entW : Nat
  deriving DecidableEq, Repr

/-- The ranges R5 and R7 give the parameters. -/
abbrev Config.Legal (c : Config) : Prop :=
  c.nmax % 32 = 0 ∧ 32 ≤ c.nmax ∧ c.nmax ≤ 524288 ∧ 1 ≤ c.entW ∧ c.entW ≤ 32

/-- The configuration of the spec's own vectors: NMAX = 1024 (R5) and ENT_W = 8, the width of program P1.
DESIGN CHOICE (notes/assumptions/1.md): any legal configuration would do, and no statement rests on this one. -/
def Config.vectors : Config := { nmax := 1024, entW := 8 }

/-- Bit `k` of the draws of a live entropy source, counted over all of them. It has no body: nothing can be proved of its
values (R82 "admits every such string"). Free value, notes/assumptions/6.md. -/
opaque Config.freeBit : Nat → Bool

end Sys2Proof
end

