-- ==== Sys2Proof/Machine/HostSyntax.lean ====
section
/-! DEFINITION. The statements of the host notation (spec/30_encoding.md R64, R65): what a program of the one host is
written in. Host variables and labels are numbered. -/

namespace Sys2Proof.Machine

/-- A host value: "a constant, a host variable or a command mnemonic standing for its word" (R64). -/
inductive HostValue
  | const (v : Word)
  | var (x : Nat)
  | cmd (i : Instr)
  deriving DecidableEq, Repr

/-- An offset: a constant, VW(r, w) or TW(j) (R65). DESIGN CHOICE, notes/assumptions/21.md: w and j are host values, r is a
fixed register, and no host variable alone is an offset; R64 says only what `e` may be, and R65 nothing of r, w and j. -/
inductive HostOffset
  | lit (a : Offset)
  | vword (r : VReg) (w : HostValue)
  | tword (j : HostValue)
  deriving DecidableEq, Repr

/-- A side of a condition: a host value, or x.BUSY, x.DONE, x.ERR of a STATUS value x (R64). -/
inductive HostTerm
  | value (e : HostValue)
  | busy (x : Nat)
  | done (x : Nat)
  | err (x : Nat)
  deriving DecidableEq, Repr

/-- The comparisons of R64: `=`, `!=`, `<`, `>`. -/
inductive HostRel
  | eq
  | ne
  | lt
  | gt
  deriving DecidableEq, Repr

/-- A condition of an `IF`. -/
structure HostCond where
  lhs : HostTerm
  rel : HostRel
  rhs : HostTerm
  deriving DecidableEq, Repr

/-- A statement of a host program (R64). -/
inductive HostStmt
  /-- `WR off, e`. -/
  | wr (off : HostOffset) (e : HostValue)
  /-- `RD off -> x`. -/
  | rd (off : HostOffset) (x : Nat)
  /-- `label:`. -/
  | label (l : Nat)
  /-- `GOTO label`. -/
  | goto (l : Nat)
  /-- `IF cond GOTO label`. -/
  | ifGoto (c : HostCond) (l : Nat)
  /-- `HALT`. -/
  | halt
  deriving DecidableEq, Repr

end Sys2Proof.Machine
end

