-- ==== Sys2Proof/Machine/State.lean ====
section
/-! DEFINITION. The state of the machine as plain data, the reasons a step can stop, and the state after reset
(spec/10_state.md R15, R34; spec/00_scope.md R13). -/

namespace Sys2Proof.Machine

/-- The outcome codes a command completes with (R25, R109). -/
inductive ErrCode
  | none
  | encoding
  | decoding
  | length
  | illegal
  | capacity
  deriving DecidableEq, Repr

/-- Why a step faults. -/
inductive Fault
  /-- A host read or write was refused (R44, R115). Raised by the host's `WR` and `RD`. Safe: the spec itself ends the
  host program in a fault (R64, R140), and the block's state is unchanged. -/
  | busError (addr : Offset)
  deriving DecidableEq, Repr

/-- Why a step is refused. -/
inductive Refusal
  /-- An instruction with no meaning yet. No arm of exec uses it. Safe: nothing is proved of such an instruction. -/
  | notModelled (mnemonic : String)
  /-- The host program jumps to a label it does not have. Raised by the host's `GOTO`. Safe: R64 gives such a program
  no meaning, and the block is not involved. -/
  | undefinedLabel (l : Nat)
  /-- The host's offset expression does not fit the 20 bits of a bus offset. Raised by the host's `WR` and `RD`.
  Safe: R36 and R37 give the block no access there. -/
  | offsetTooWide (addr : Nat)
  deriving DecidableEq, Repr

/-- The entropy source (R13, R82): no stepping agent, but the supplier of the draw that a KEYGEN takes in its engine step.
"The functional model is the same for both sources" (R86). Two kinds: DESIGN CHOICE, notes/assumptions/6.md. -/
inductive EntropySource
  /-- A source that has delivered whatever a KEYGEN needs. Each draw is the next bits of Config.freeBit, `pos` the index
  of the first (R82). -/
  | live (pos : Nat)
  /-- The stream of beats a test harness drives (R83, R86): those no KEYGEN has consumed, in stream order. Beyond them the
  source delivers nothing. -/
  | stream (beats : List Word)
  deriving DecidableEq, Repr

/-- Whose step is next (R13): the events of R114. The order of steps is data of the state, so that every interleaving of
R114 is some state's. DESIGN CHOICE, notes/assumptions/4.md. -/
inductive Turn
  /-- The host performs its next statement. -/
  | host
  /-- The engine completes the command in flight, if it can. -/
  | engine
  /-- The reset input is asserted (R126). `taken` is how many beats of a test stream the KEYGEN it abandons had taken,
  which R126 leaves open: any number, at most what that KEYGEN needs (notes/assumptions/9.md). -/
  | reset (taken : Nat)
  deriving DecidableEq, Repr

/-- How far the host is (R64, R140). -/
inductive HostStatus
  /-- It has not executed `HALT`. -/
  | running
  /-- It executed `HALT` with BUSY = 0: the run has ended (R140). -/
  | ended
  /-- It executed `HALT` with BUSY = 1, "not a final state either" (R140). -/
  | haltedInFlight
  deriving DecidableEq, Repr

/-- The one host (R13, R64): its program, the index of its next statement, its variables (sparse, in the canonical form
of `Memory.wf`; a variable not listed holds 0), and whether and how it has executed `HALT`. -/
structure HostAgent where
  prog : List HostStmt
  pc : Nat
  vars : List (Nat × Word)
  status : HostStatus
  deriving DecidableEq, Repr

/-- The machine. `mem` to `errinfo` are the architectural state of R15; `cfg` is the configuration of R5 to R7, which no
step changes; `source` to `sched` are the model's own: the entropy input, the host and the order of steps. -/
structure State where
  /-- NMAX and ENT_W (R5, R7). -/
  cfg : Config
  /-- The storage of V0 to V3 and of T, byte by byte at its bus offset (R38, R39, R46), in the canonical form of
  `Memory.wf`; a byte not listed is 0 (R34). -/
  mem : List Host.Cell
  /-- VLEN0 (R17). -/
  vlen0 : Word
  /-- VLEN1 (R17). -/
  vlen1 : Word
  /-- VLEN2 (R17). -/
  vlen2 : Word
  /-- VLEN3 (R17). -/
  vlen3 : Word
  /-- TLEN (R20). -/
  tlen : Word
  /-- ARG (R21). -/
  arg : Word
  /-- CMD (R22). -/
  cmd : Word
  /-- STATUS bit 0 (R23). -/
  busy : Bool
  /-- STATUS bit 1 (R24). -/
  done : Bool
  /-- STATUS bits [7:4] (R25). -/
  err : BitVec 4
  /-- ERRINFO (R26). -/
  errinfo : Word
  /-- The entropy source (R82, R83). -/
  source : EntropySource
  /-- The host (R64). -/
  host : HostAgent
  /-- The next turns; when it is empty the turn is `defaultTurn`. -/
  sched : List Turn
  deriving DecidableEq, Repr

/-- A host with no program. -/
def HostAgent.idle : HostAgent := { prog := [], pc := 0, vars := [], status := .running }

/-- The state after reset of a block with the given configuration (R34), with no host program, a live entropy source and
no turns fixed. -/
def State.resetOf (c : Config) : State :=
  { cfg := c, mem := [], vlen0 := 0, vlen1 := 0, vlen2 := 0, vlen3 := 0, tlen := 0, arg := 0, cmd := 0, busy := false,
    done := false, err := 0, errinfo := 0, source := .live 0, host := HostAgent.idle, sched := [] }

/-- The machine right after reset (R34), at the configuration of the spec's vectors. -/
def State.reset : State := State.resetOf Config.vectors

end Sys2Proof.Machine
end

