-- ==== Sys2Proof/Machine/Entropy.lean ====
section
/-! DEFINITION. The entropy input (spec/41_keygen.md): the draw a KEYGEN takes (R82), and how a test stream of beats makes
it (R83, R86). Nothing here is a step: the source is the supplier of the draw (spec/00_scope.md R13). -/

namespace Sys2Proof.Machine

/-- The beats a draw of L bits takes from a stream: ceil(L / ENT_W) (R83). -/
def beatsFor (c : Config) (L : Nat) : Nat := (L + c.entW - 1) / c.entW

/-- Bit i of a draw from a stream: bit ENT_W - 1 - (i mod ENT_W) of beat i / ENT_W (R83). -/
def drawBit (c : Config) (beats : List Word) (i : Nat) : Bool :=
  (beats.getD (i / c.entW) 0).getLsbD (c.entW - 1 - i % c.entW)

/-- EntropyDraw(L) (R82): the L bits, and the source after it; `none` while the source has not delivered them (R87). Of a
live source every draw is L free bits, whatever ENT_W is (R7); of a stream it is made by R83, and the beats it takes are
taken whole (R85). -/
def EntropySource.draw (c : Config) (L : Nat) : EntropySource → Option (List Bool × EntropySource)
  | .live pos => some ((List.range L).map (fun i => Config.freeBit (pos + i)), .live (pos + L))
  | .stream beats =>
    if beats.length < beatsFor c L then none
    else some ((List.range L).map (drawBit c beats), .stream (beats.drop (beatsFor c L)))

/-- The source without the next n beats (R126). A live source has handed none over: the draw of an abandoned KEYGEN was
never made. -/
def EntropySource.discard (n : Nat) : EntropySource → EntropySource
  | .live pos => .live pos
  | .stream beats => .stream (beats.drop n)

end Sys2Proof.Machine
end

