-- ==== Sys2Proof/Machine/Flags.lean ====
section
/-! DEFINITION. The status register: the outcome codes (spec/10_state.md R25) and the STATUS word (R29). The block has no
other flags (R32). -/

namespace Sys2Proof.Machine

/-- The 4-bit code of an outcome (R25, R109). -/
def ErrCode.code : ErrCode → BitVec 4
  | .none => 0
  | .encoding => 1
  | .decoding => 2
  | .length => 3
  | .illegal => 4
  | .capacity => 5

/-- The STATUS word: ERR << 4 | DONE << 1 | BUSY, every other bit 0 (R29, R40). -/
def State.statusWord (s : State) : Word :=
  (s.err.setWidth 32 <<< 4) ||| ((BitVec.ofBool s.done).setWidth 32 <<< 1) ||| (BitVec.ofBool s.busy).setWidth 32

/-- x.BUSY of a STATUS value x: bit 0 (R64). -/
def statusBusy (x : Word) : Word := (x.extractLsb' 0 1).setWidth 32

/-- x.DONE of a STATUS value x: bit 1 (R64). -/
def statusDone (x : Word) : Word := (x.extractLsb' 1 1).setWidth 32

/-- x.ERR of a STATUS value x: bits [7:4] (R64). -/
def statusErr (x : Word) : Word := (x.extractLsb' 4 4).setWidth 32

end Sys2Proof.Machine
end

