-- ==== Sys2Proof/Machine/Ops.lean ====
section
/-! DEFINITION. The named operations over memory and registers, and the ones every command shares: issue, success,
failure and reset. The block has no trap (spec/60_exceptions.md R116): `State.fail` is what "taking an exception" is
here, and R117 gives no return from it. -/

namespace Sys2Proof.Machine

/-! ### Sparse storage -/

/-- The value at an address; an unlisted address reads as 0 (R34). -/
def Memory.get {w : Nat} : List (Nat × BitVec w) → Nat → BitVec w
  | [], _ => 0
  | (k, v) :: m, a => if k = a then v else Memory.get m a

/-- Write `f 0, …, f (n - 1)` to the addresses `base, …, base + n - 1`. The one write of the model: it keeps the
canonical form, since what it writes stands in order between what lay below and what lies above, less the zeros. -/
def Memory.fill {w : Nat} (m : List (Nat × BitVec w)) (base n : Nat) (f : Nat → BitVec w) : List (Nat × BitVec w) :=
  m.filter (fun c => decide (c.1 < base))
    ++ ((List.range n).map (fun k => (base + k, f k))).filter (fun c => c.2 != 0)
    ++ m.filter (fun c => decide (base + n ≤ c.1))

/-- The canonical form: addresses strictly rising, and no entry equal to what an unlisted address reads as. -/
abbrev Memory.wf {w : Nat} (m : List (Nat × BitVec w)) : Prop :=
  m.Pairwise (fun x y => x.1 < y.1) ∧ ∀ c ∈ m, c.2 ≠ 0

/-- Byte `k` of a word, the most significant first (R46). -/
def byteOf (v : Word) (k : Nat) : Byte := v.extractLsb' (24 - 8 * k) 8

/-- The word at a bus offset, its lowest-numbered byte the most significant (R46). -/
def Memory.readWord (m : List Host.Cell) (a : Nat) : Word :=
  Memory.get m a ++ Memory.get m (a + 1) ++ Memory.get m (a + 2) ++ Memory.get m (a + 3)

/-- Write a word at a bus offset, its most significant byte first (R46). -/
def Memory.writeWord (m : List Host.Cell) (a : Nat) (v : Word) : List Host.Cell := Memory.fill m a 4 (byteOf v)

/-! ### Where the storage lies -/

/-- TMAX = NMAX / 8 (R6). -/
def tmaxOf (c : Config) : Nat := c.nmax / 8

/-- The number r of a vector register (R16). -/
def VReg.index : VReg → Nat
  | .v0 => 0
  | .v1 => 1
  | .v2 => 2
  | .v3 => 3

/-- base(r) = 0x10000 * (r + 1) (R38). -/
def vbase (r : VReg) : Nat := 0x10000 * (VReg.index r + 1)

/-- The offset of T[0] (R39). -/
def tbase : Nat := 0x80000

/-- The bytes of a vector register's storage: NMAX / 8 from base(r) (R38). -/
abbrev inVector (c : Config) (r : VReg) (a : Nat) : Prop := vbase r ≤ a ∧ a < vbase r + c.nmax / 8

/-- The bytes of the text buffer: 4 * TMAX from 0x80000 (R39). -/
abbrev inText (c : Config) (a : Nat) : Prop := tbase ≤ a ∧ a < tbase + 4 * tmaxOf c

/-! ### Registers -/

/-- VLEN[r] (R17). -/
def State.vlen (s : State) : VReg → Word
  | .v0 => s.vlen0
  | .v1 => s.vlen1
  | .v2 => s.vlen2
  | .v3 => s.vlen3

/-- VLEN[r] <- v (R17). -/
def State.setVlen (s : State) (r : VReg) (v : Word) : State :=
  match r with
  | .v0 => { s with vlen0 := v }
  | .v1 => { s with vlen1 := v }
  | .v2 => { s with vlen2 := v }
  | .v3 => { s with vlen3 := v }

/-- V[r][i] (R38): element i is bit 7 - (i mod 8) of packed byte i / 8 (R46). -/
def State.vbit (s : State) (r : VReg) (i : Nat) : Bool := (Memory.get s.mem (vbase r + i / 8)).getMsbD (i % 8)

/-- T[j] (R39). -/
def State.text (s : State) (j : Nat) : Word := Memory.readWord s.mem (tbase + 4 * j)

/-- val8 of an 8-element sequence: its first element is the most significant bit (R11). -/
def val8 (g : Nat → Bool) : Byte := BitVec.ofBoolListBE [g 0, g 1, g 2, g 3, g 4, g 5, g 6, g 7]

/-- Element k of bits8(c): c[7 - k] (R11). For a word above 255 it is that of its low byte. -/
def bits8 (c : Word) (k : Nat) : Bool := c.getLsbD (7 - k)

/-- Packed byte k of a register that holds g 0, …, g (L - 1) and zeros above (R46, R75). -/
def seqByte (L : Nat) (g : Nat → Bool) (k : Nat) : Byte := val8 (fun m => decide (8 * k + m < L) && g (8 * k + m))

/-- Byte k of a text buffer that holds f 0, …, f (n - 1) and zeros above (R75). -/
def textByte (n : Nat) (f : Nat → Word) (k : Nat) : Byte := if k / 4 < n then byteOf (f (k / 4)) (k % 4) else 0

/-- The result of a command that writes a vector register: the elements g 0, …, g (L - 1), zeros from L to NMAX - 1, and
VLEN[d] <- L (R75, R81, R90). -/
def State.writeSeq (s : State) (d : VReg) (L : Nat) (g : Nat → Bool) : State :=
  { s with mem := Memory.fill s.mem (vbase d) (s.cfg.nmax / 8) (seqByte L g) }.setVlen d (BitVec.ofNat 32 L)

/-- The result of DECODE: the words f 0, …, f (n - 1), zeros from n to TMAX - 1, and TLEN <- n (R74, R75). -/
def State.writeText (s : State) (n : Nat) (f : Nat → Word) : State :=
  { s with
    mem := Memory.fill s.mem tbase (4 * tmaxOf s.cfg) (textByte n f)
    tlen := BitVec.ofNat 32 n }

/-! ### Issue, completion and reset -/

/-- issue(v) (R106). -/
def State.issue (s : State) (v : Word) : State :=
  { s with cmd := v, busy := true, done := false, err := 0, errinfo := 0 }

/-- complete() and the end of the engine step (R12, R107): success, ERR = NONE, ERRINFO = 0. -/
def State.complete (s : State) : State :=
  { s with err := ErrCode.code .none, errinfo := 0, busy := false, done := true }

/-- fail(code, info) and the end of the engine step (R107, R108): no other state changes. -/
def State.fail (s : State) (code : ErrCode) (info : Word) : State :=
  { s with err := code.code, errinfo := info, busy := false, done := true }

/-- A KEYGEN that passes its CAPACITY check is in flight, so that it is taking its draw (R87). -/
def State.keygenInFlight (s : State) : Bool :=
  s.busy && match decodeWord s.cmd with
    | .ok (.keygen _) => decide (s.arg.toNat ≤ s.cfg.nmax)
    | _ => false

/-- The source after a draw (R85). -/
def State.setSource (s : State) (src : EntropySource) : State := { s with source := src }

/-- Reset, in one step (R126, R34): the block at its reset values, the configuration kept, and the `taken` beats an
abandoned KEYGEN had taken, at most those it needs, discarded. The host, the source and the order of steps lie outside the
block. -/
def State.takeReset (s : State) (taken : Nat) : State :=
  { State.resetOf s.cfg with
    source := if s.keygenInFlight then s.source.discard (min taken (beatsFor s.cfg s.arg.toNat)) else s.source
    host := s.host
    sched := s.sched }

/-- Place a command so that the next step runs it: issue its word (R106) and give the engine the next turn. -/
def State.placeCommand (s : State) (nbits w : Nat) : State :=
  { s.issue (BitVec.ofNat 32 (w % 2 ^ nbits)) with sched := .engine :: s.sched }

end Sys2Proof.Machine
end

