-- ==== Sys2Proof/Machine/Operands.lean ====
section
/-! DEFINITION. The operands a command reads: the length registers as unsigned numbers (spec/30_encoding.md R57), and the
sequences and the text (spec/10_state.md R18, R20). -/

namespace Sys2Proof.Machine

/-- VLEN[r] as an unsigned number (R57). -/
def State.vlenNat (s : State) (r : VReg) : Nat := (s.vlen r).toNat

/-- TLEN as an unsigned number (R57). -/
def State.tlenNat (s : State) : Nat := s.tlen.toNat

/-- ARG as an unsigned number (R57). -/
def State.argNat (s : State) : Nat := s.arg.toNat

/-- seq(r) = V[r][0], …, V[r][VLEN[r] - 1] (R18). R18 defines it only when VLEN[r] <= NMAX. DESIGN CHOICE: beyond that it is
still a list, of bytes past the register's storage; no command reads it (notes/assumptions/19.md). -/
def State.seq (s : State) (r : VReg) : List Bool := (List.range (s.vlenNat r)).map (s.vbit r)

/-- text() = T[0], …, T[TLEN - 1] (R20). R20 defines it only when TLEN <= TMAX. DESIGN CHOICE: beyond that it is still a
list, of bytes past the text buffer; no command reads it (notes/assumptions/19.md). -/
def State.textSeq (s : State) : List Word := (List.range s.tlenNat).map s.text

/-- The lowest index j < TLEN with T[j] > 255 (R72). -/
def State.firstBad (s : State) : Option Nat := (List.range s.tlenNat).find? (fun j => decide (255 < (s.text j).toNat))

/-- Element i of ENCODE's result: bits8(T[i / 8]) at position i mod 8 (R72). -/
def State.encodeBit (s : State) (i : Nat) : Bool := bits8 (s.text (i / 8)) (i % 8)

/-- Word j of DECODE's result: val8 of the j-th 8-bit group of seq(a), zero-extended (R74). -/
def State.decodeWordAt (s : State) (a : VReg) (j : Nat) : Word := (val8 (fun m => s.vbit a (8 * j + m))).setWidth 32

/-- Element i of XOR's result (R89). -/
def State.xorBit (s : State) (a b : VReg) (i : Nat) : Bool := s.vbit a i ^^ s.vbit b i

end Sys2Proof.Machine
end

