-- ==== Sys2Proof/Machine/Codec.lean ====
section
/-! DEFINITION. The BitCodec commands ENCODE and DECODE (spec/40_codec.md). -/

namespace Sys2Proof.Machine

/-- ENCODE Vd (R72): CAPACITY, then ENCODING at the lowest offending index, then the result. -/
def execEncode (d : VReg) (s : State) : Host.Outcome State Fault Refusal :=
  if tmaxOf s.cfg < s.tlenNat then .next (s.fail .capacity 0)
  else match s.firstBad with
    | some j => .next (s.fail .encoding (BitVec.ofNat 32 j))
    | none => .next (s.writeSeq d (8 * s.tlenNat) s.encodeBit).complete

/-- DECODE Va (R74): CAPACITY, then DECODING, then the result. -/
def execDecode (a : VReg) (s : State) : Host.Outcome State Fault Refusal :=
  if s.cfg.nmax < s.vlenNat a then .next (s.fail .capacity 0)
  else if s.vlenNat a % 8 ≠ 0 then .next (s.fail .decoding 0)
  else .next (s.writeText (s.vlenNat a / 8) (s.decodeWordAt a)).complete

end Sys2Proof.Machine
end

