-- ==== Sys2Proof/Machine/Combiner.lean ====
section
/-! DEFINITION. The XorCombiner command XOR (spec/42_combiner.md). -/

namespace Sys2Proof.Machine

/-- XOR Vd, Va, Vb (R89): CAPACITY, then LENGTH, then the result, every operand read before any bit is written (R90). -/
def execXor (d a b : VReg) (s : State) : Host.Outcome State Fault Refusal :=
  if s.cfg.nmax < s.vlenNat a ∨ s.cfg.nmax < s.vlenNat b then .next (s.fail .capacity 0)
  else if s.vlenNat a ≠ s.vlenNat b then .next (s.fail .length 0)
  else .next (s.writeSeq d (s.vlenNat a) (s.xorBit a b)).complete

end Sys2Proof.Machine
end

