-- ==== Sys2Proof/Machine/Keygen.lean ====
section
/-! DEFINITION. The KeyGenerator command KEYGEN (spec/41_keygen.md). -/

namespace Sys2Proof.Machine

/-- complete_step(e) of KEYGEN Vd (R81, R107): the bits of the draw e into V[d], zeros above them, VLEN[d] the length of
e. It depends on no source and not on ENT_W (R7). -/
def State.writeDraw (s : State) (d : VReg) (e : List Bool) : State :=
  (s.writeSeq d e.length (fun i => e.getD i false)).complete

/-- KEYGEN Vd (R81): CAPACITY; the command stays in flight while the source has not delivered the draw (R87); else the one
draw of ARG bits (R82). -/
def execKeygen (d : VReg) (s : State) : Host.Outcome State Fault Refusal :=
  if s.cfg.nmax < s.argNat then .next (s.fail .capacity 0)
  else match s.source.draw s.cfg s.argNat with
    | none => .next s
    | some (e, src) => .next ((s.writeDraw d e).setSource src)

end Sys2Proof.Machine
end

