-- ==== Sys2Proof/Machine/Dispatch.lean ====
section
/-! DEFINITION. One arm per command: its completion by the engine (spec/60_exceptions.md R107). -/

namespace Sys2Proof.Machine

def exec (i : Instr) (s : State) : Host.Outcome State Fault Refusal :=
  match i with
  | .encode d => Sys2Proof.Machine.execEncode d s
  | .decode a => Sys2Proof.Machine.execDecode a s
  | .keygen d => Sys2Proof.Machine.execKeygen d s
  | .xor d a b => Sys2Proof.Machine.execXor d a b s

end Sys2Proof.Machine
end

