-- ==== Sys2Proof/Machine/Bus.lean ====
section
/-! DEFINITION. The host bus (spec/20_memory.md): the address map (R42), the bus read (R40) and the bus write (R41). -/

namespace Sys2Proof.Machine

/-- What lies at a mapped offset (R30, R42). -/
inductive Target
  | id
  | cap
  | cmd
  | status
  | errinfo
  | arg
  | tlen
  | vlen (r : VReg)
  /-- Storage word w of a vector register. -/
  | vword (r : VReg) (w : Nat)
  /-- Text word j. -/
  | tword (j : Nat)
  deriving DecidableEq, Repr

/-- The constant of the ID register (R27). -/
def idValue : Word := 0x4F545001

/-- The register at word index k of the register block (R30). -/
def registerAt (k : Nat) : Option Target :=
  if k = 0 then some .id
  else if k = 1 then some .cap
  else if k = 2 then some .cmd
  else if k = 3 then some .status
  else if k = 4 then some .errinfo
  else if k = 5 then some .arg
  else if k = 6 then some .tlen
  else if k = 8 then some (.vlen .v0)
  else if k = 9 then some (.vlen .v1)
  else if k = 10 then some (.vlen .v2)
  else if k = 11 then some (.vlen .v3)
  else none

/-- Storage word (a - base(r)) / 4 of a vector register, if it has that word (R38). -/
def vwordAt (c : Config) (r : VReg) (a : Nat) : Option Target :=
  if (a - vbase r) / 4 < c.nmax / 32 then some (.vword r ((a - vbase r) / 4)) else none

/-- The address map (R42) over aligned offsets; a misaligned offset has no target (R43). -/
def targetAt (c : Config) (a : Nat) : Option Target :=
  if a % 4 ≠ 0 then none
  else if a < 0x10000 then registerAt (a / 4)
  else if a < 0x20000 then vwordAt c .v0 a
  else if a < 0x30000 then vwordAt c .v1 a
  else if a < 0x40000 then vwordAt c .v2 a
  else if a < 0x50000 then vwordAt c .v3 a
  else if a < 0x80000 then none
  else if (a - tbase) / 4 < tmaxOf c then some (.tword ((a - tbase) / 4))
  else none

/-- The reads R45 allows while BUSY = 1. -/
def Target.readableBusy : Target → Bool
  | .id | .cap | .cmd | .status | .errinfo => true
  | .arg | .tlen | .vlen _ | .vword _ _ | .tword _ => false

/-- The value a read of a target returns (R40). -/
def State.readTarget (s : State) : Target → Word
  | .id => idValue
  | .cap => BitVec.ofNat 32 s.cfg.nmax
  | .cmd => s.cmd
  | .status => s.statusWord
  | .errinfo => s.errinfo
  | .arg => s.arg
  | .tlen => s.tlen
  | .vlen r => s.vlen r
  | .vword r w => Memory.readWord s.mem (vbase r + 4 * w)
  | .tword j => s.text j

/-- The effect of a write to a target; `none` where R41 raises a bus error (ID, CAP, STATUS, ERRINFO). -/
def State.writeTarget (s : State) (t : Target) (v : Word) : Option State :=
  match t with
  | .id | .cap | .status | .errinfo => none
  | .cmd => some (s.issue v)
  | .arg => some { s with arg := v }
  | .tlen => some { s with tlen := v }
  | .vlen r => some (s.setVlen r v)
  | .vword r w => some { s with mem := Memory.writeWord s.mem (vbase r + 4 * w) v }
  | .tword j => some { s with mem := Memory.writeWord s.mem (tbase + 4 * j) v }

/-- MemRead(addr, 4) (R40): `none` is a bus error. A read changes no state. -/
def State.busRead (s : State) (addr : Offset) : Option Word :=
  match targetAt s.cfg addr.toNat with
  | none => none
  | some t => if s.busy && !t.readableBusy then none else some (s.readTarget t)

/-- MemWrite(addr, 4, v) (R41): `none` is a bus error. -/
def State.busWrite (s : State) (addr : Offset) (v : Word) : Option State :=
  if s.busy then none
  else match targetAt s.cfg addr.toNat with
    | none => none
    | some t => s.writeTarget t v

end Sys2Proof.Machine
end

