-- ==== Sys2Proof/Machine/HostAgent.lean ====
section
/-! DEFINITION. The host: how a statement of the host notation is performed (spec/30_encoding.md R64), the symbolic
offsets (R65) and the expansions of the pseudo-instructions WAIT, DO, ENCRYPT and DECRYPT (R66 to R69). -/

namespace Sys2Proof.Machine

/-! ### Values, offsets, conditions -/

/-- The value of a host value (R64). -/
def HostValue.eval (vars : List (Nat × Word)) : HostValue → Word
  | .const v => v
  | .var x => Memory.get vars x
  | .cmd i => encodeWord i

/-- The number an offset expression denotes: VW(r, w) = base(r) + 4 * w, TW(j) = 0x80000 + 4 * j (R65). -/
def HostOffset.eval (vars : List (Nat × Word)) : HostOffset → Nat
  | .lit a => a.toNat
  | .vword r w => vbase r + 4 * (w.eval vars).toNat
  | .tword j => tbase + 4 * (j.eval vars).toNat

/-- The value of a side of a condition (R64). -/
def HostTerm.eval (vars : List (Nat × Word)) : HostTerm → Word
  | .value e => e.eval vars
  | .busy x => statusBusy (Memory.get vars x)
  | .done x => statusDone (Memory.get vars x)
  | .err x => statusErr (Memory.get vars x)

/-- The comparisons are of unsigned words (R10, R64). -/
def HostRel.holds (r : HostRel) (x y : Word) : Bool :=
  match r with
  | .eq => decide (x = y)
  | .ne => decide (x ≠ y)
  | .lt => decide (x.toNat < y.toNat)
  | .gt => decide (y.toNat < x.toNat)

/-- Whether a condition holds (R64). -/
def HostCond.holds (vars : List (Nat × Word)) (c : HostCond) : Bool :=
  c.rel.holds (c.lhs.eval vars) (c.rhs.eval vars)

/-! ### One host step -/

/-- The host goes on to its next statement. -/
def State.hostAdvance (s : State) : State := { s with host := { s.host with pc := s.host.pc + 1 } }

/-- x <- v and the next statement. -/
def State.hostAssign (s : State) (x : Nat) (v : Word) : State :=
  { s with host := { s.host with pc := s.host.pc + 1, vars := Memory.fill s.host.vars x 1 (fun _ => v) } }

/-- GOTO l: the host goes on at the statement marked l (R64). DESIGN CHOICE, notes/assumptions/12.md: of two statements marked
l, which R64 does not speak of, it is the first. -/
def State.hostGoto (s : State) (l : Nat) : Host.Outcome State Fault Refusal :=
  match s.host.prog.findIdx? (fun t => decide (t = .label l)) with
  | none => .refused (.undefinedLabel l)
  | some k => .next { s with host := { s.host with pc := k } }

/-- `WR off, e` (R64): a bus write, whose bus error ends the program in a fault. -/
def State.hostWrite (s : State) (off : HostOffset) (e : HostValue) : Host.Outcome State Fault Refusal :=
  if 2 ^ 20 ≤ off.eval s.host.vars then .refused (.offsetTooWide (off.eval s.host.vars))
  else match s.busWrite (BitVec.ofNat 20 (off.eval s.host.vars)) (e.eval s.host.vars) with
    | none => .fault (.busError (BitVec.ofNat 20 (off.eval s.host.vars)))
    | some s' => .next s'.hostAdvance

/-- `RD off -> x` (R64): a bus read, whose bus error ends the program in a fault. -/
def State.hostRead (s : State) (off : HostOffset) (x : Nat) : Host.Outcome State Fault Refusal :=
  if 2 ^ 20 ≤ off.eval s.host.vars then .refused (.offsetTooWide (off.eval s.host.vars))
  else match s.busRead (BitVec.ofNat 20 (off.eval s.host.vars)) with
    | none => .fault (.busError (BitVec.ofNat 20 (off.eval s.host.vars)))
    | some v => .next (s.hostAssign x v)

/-- One statement (R64). `HALT` records whether a command was in flight (R140). -/
def State.hostStmt (s : State) : HostStmt → Host.Outcome State Fault Refusal
  | .wr off e => s.hostWrite off e
  | .rd off x => s.hostRead off x
  | .label _ => .next s.hostAdvance
  | .goto l => s.hostGoto l
  | .ifGoto c l => if c.holds s.host.vars then s.hostGoto l else .next s.hostAdvance
  | .halt => .next { s with host := { s.host with status := if s.busy then .haltedInFlight else .ended } }

/-- A host step (R13): the next statement; a host that has halted, or has no statement left, makes no access. -/
def hostTurn (s : State) : Host.Outcome State Fault Refusal :=
  match s.host.status with
  | .ended | .haltedInFlight => .next s
  | .running =>
    match s.host.prog[s.host.pc]? with
    | none => .next s
    | some t => s.hostStmt t

/-- A final state: the host has executed HALT with BUSY = 0 (R140). -/
def State.final (s : State) : Bool := decide (s.host.status = .ended) && !s.busy

/-! ### Symbolic offsets and pseudo-instructions -/

/-- CMD (R65). -/
def offCmd : HostOffset := .lit 0x00008

/-- STATUS (R65). -/
def offStatus : HostOffset := .lit 0x0000C

/-- ARG (R65). -/
def offArg : HostOffset := .lit 0x00014

/-- VLENr (R65). -/
def offVlen (r : VReg) : HostOffset := .lit (BitVec.ofNat 20 (0x20 + 4 * VReg.index r))

/-- x.BUSY = 1. -/
def condBusy (x : Nat) : HostCond := { lhs := .busy x, rel := .eq, rhs := .value (.const 1) }

/-- x.ERR != 0. -/
def condErr (x : Nat) : HostCond := { lhs := .err x, rel := .ne, rhs := .value (.const 0) }

/-- `WAIT x`, with `l` for its label (R66). -/
def pseudoWait (x l : Nat) : List HostStmt := [.label l, .rd offStatus x, .ifGoto (condBusy x) l]

/-- `DO cmd, x` (R67). -/
def pseudoDo (i : Instr) (x l : Nat) : List HostStmt := .wr offCmd (.cmd i) :: pseudoWait x l

/-- `ENCRYPT Vp, Vk, Vc` (R68), with x and n8 its variables, l, l + 1, l + 2 the labels of its three waits, and `fail`
the label it goes to on an error. -/
def pseudoEncrypt (p k c : VReg) (x n8 l fail : Nat) : List HostStmt :=
  pseudoDo (.encode p) x l ++ [.ifGoto (condErr x) fail, .rd (offVlen p) n8, .wr offArg (.var n8)]
    ++ pseudoDo (.keygen k) x (l + 1) ++ [.ifGoto (condErr x) fail]
    ++ pseudoDo (.xor c p k) x (l + 2) ++ [.ifGoto (condErr x) fail]

/-- `DECRYPT Vc, Vk, Vp` (R69), with x its variable, l and l + 1 the labels of its two waits, and `fail` the label it goes
to on an error. -/
def pseudoDecrypt (c k p : VReg) (x l fail : Nat) : List HostStmt :=
  pseudoDo (.xor p c k) x l ++ [.ifGoto (condErr x) fail]
    ++ pseudoDo (.decode p) x (l + 1) ++ [.ifGoto (condErr x) fail]

/-! ### A host with a program -/

/-- The machine after reset with a host program loaded and a source connected to the entropy input (R86, R129): how a
program comes to run (notes/assumptions/16.md). -/
def bootWith (c : Config) (prog : List HostStmt) (src : EntropySource) : State :=
  { State.resetOf c with source := src, host := { HostAgent.idle with prog := prog } }

end Sys2Proof.Machine
end

