-- ==== Sys2Proof/Machine/Engine.lean ====
section
/-! DEFINITION. The engine's completion step (spec/60_exceptions.md R107) and whose turn it is (spec/00_scope.md R13,
R114). -/

namespace Sys2Proof.Machine

/-- The engine's turn (R107): a command in flight completes; a word that decodes to ILLEGAL completes with that outcome
(R111); with nothing in flight the block keeps all its state (R122). -/
def engineTurn (s : State) : Host.Outcome State Fault Refusal :=
  if s.busy then
    match decodeWord s.cmd with
    | .error _ => .next (s.fail .illegal 0)
    | .ok i => exec i s
  else .next s

/-- One command from issue to completion, with no step between (R106, R107). -/
def runCommand (i : Instr) (s : State) : Host.Outcome State Fault Refusal := exec i (s.issue (encodeWord i))

/-- The completion step is enabled (R107): a command is in flight and, for a KEYGEN that passes its CAPACITY check, the
source has delivered its draw. -/
def State.engineReady (s : State) : Bool :=
  s.busy && (!s.keygenInFlight || (s.source.draw s.cfg s.arg.toNat).isSome)

/-- The turn when the state fixes none: the engine if its step is enabled, else the host. It is weakly fair (R138).
DESIGN CHOICE, notes/assumptions/5.md. -/
def State.defaultTurn (s : State) : Turn := if s.engineReady then .engine else .host

/-- Perform one turn (R13). -/
def takeTurn (t : Turn) (s : State) : Host.Outcome State Fault Refusal :=
  match t with
  | .host => hostTurn s
  | .engine => engineTurn s
  | .reset taken => .next (s.takeReset taken)

/-- One step of the machine: the first turn of the schedule, or the default turn when it is empty. In a final state the run
has ended and no turn is taken (R140; notes/assumptions/20.md). -/
def nextStep (s : State) : Host.Outcome State Fault Refusal :=
  if s.final then .next s
  else match s.sched with
    | [] => takeTurn s.defaultTurn s
    | t :: ts => takeTurn t { s with sched := ts }

end Sys2Proof.Machine
end

