-- ==== Sys2Proof/Machine/Step.lean ====
section
/-! DEFINITION. The step of the machine, and how the host of this pipeline places a command. -/

namespace Sys2Proof.Machine

/-- One step: of the host, the engine or reset (spec/00_scope.md R13, spec/60_exceptions.md R114). -/
def step (s : State) : Host.Outcome State Fault Refusal := nextStep s

/-- The state with a command placed so that the very next step runs it. The block fetches nothing (R33, R53): a command
comes from the host's write to CMD, which this stands for (notes/assumptions/16.md). -/
def State.withFetchWord (s : State) (nbits w : Nat) : State := s.placeCommand nbits w

end Sys2Proof.Machine
end

