-- ==== Sys2Proof/Safety.lean ====
section
/-! DEFINITION. What claims are stated in: the invariant of reachable states (spec/10_state.md R35), runs of several steps,
and what a command may leave changed. -/

namespace Sys2Proof.Machine

/-- An address of storage: a byte of a vector register or of the text buffer (R38, R39). -/
abbrev inStorage (c : Config) (a : Nat) : Prop :=
  inVector c .v0 a ∨ inVector c .v1 a ∨ inVector c .v2 a ∨ inVector c .v3 a ∨ inText c a

/-- The storage is in canonical form and lists only bytes of storage. -/
abbrev State.memOk (s : State) : Prop := Memory.wf s.mem ∧ ∀ c ∈ s.mem, inStorage s.cfg c.1

/-- R35 (b), (c) and (d); (a) holds of every state, since a storage bit is a Bool. -/
abbrev State.statusOk (s : State) : Prop :=
  (s.busy = true → s.done = false ∧ s.err = 0 ∧ s.errinfo = 0) ∧ s.err.toNat ≤ 5 ∧
    (s.err ≠ 0 → s.done = true ∧ s.busy = false)

/-- ERRINFO is 0 but after ENCODING, where it is an index below TMAX (R26). -/
abbrev State.errinfoOk (s : State) : Prop :=
  (s.err ≠ 1 → s.errinfo = 0) ∧ (s.err = 1 → s.errinfo.toNat < tmaxOf s.cfg)

/-- The invariant every step keeps; a run has ended only with no command in flight (R140). -/
structure State.Inv (s : State) : Prop where
  legal : s.cfg.Legal
  mem : s.memOk
  status : s.statusOk
  errinfo : s.errinfoOk
  vars : Memory.wf s.host.vars
  ended : s.host.status = .ended → s.busy = false

/-- `n` steps, stopping at the first fault or refusal. -/
def runSteps : Nat → State → Host.Outcome State Fault Refusal
  | 0, s => .next s
  | n + 1, s =>
    match step s with
    | .next t => runSteps n t
    | .fault f => .fault f
    | .refused r => .refused r

/-- What no command and no completion changes: the configuration, ARG, CMD, the host and the order of steps. -/
structure State.SameOutside (s t : State) : Prop where
  cfg : t.cfg = s.cfg
  arg : t.arg = s.arg
  cmd : t.cmd = s.cmd
  host : t.host = s.host
  sched : t.sched = s.sched

/-- The operands and storage two states have in common: all of memory and every length register. -/
structure State.SameData (s t : State) : Prop where
  mem : t.mem = s.mem
  vlen : ∀ r, t.vlen r = s.vlen r
  tlen : t.tlen = s.tlen

/-- A command completed with an outcome: BUSY = 0, DONE = 1, ERR and ERRINFO as given (R107). -/
structure State.Completed (t : State) (code : ErrCode) (info : Word) : Prop where
  busy : t.busy = false
  done : t.done = true
  err : t.err = code.code
  errinfo : t.errinfo = info

/-- A command completed with an error and changed nothing else (R108). -/
structure State.FailedWith (s t : State) (code : ErrCode) (info : Word) : Prop where
  completed : t.Completed code info
  outside : s.SameOutside t
  data : s.SameData t
  source : t.source = s.source

end Sys2Proof.Machine
end

