-- ==== Sys2Proof/WellFormed.lean ====
section
/-! DEFINITION. What is well formed before the machine runs it: a command word by its fields (spec/30_encoding.md R60),
an instruction by its word, and a host program (R64, R68). -/

namespace Sys2Proof

/-- The fields of a command word (R56). -/
structure Fields where
  op : BitVec 4
  vd : BitVec 2
  va : BitVec 2
  vb : BitVec 2
  rsv : BitVec 22
  deriving DecidableEq, Repr

/-- The operand fields an opcode does not use must be 0 (R58, "fields that must be 0"). -/
def Fields.unusedZero (f : Fields) : Bool :=
  if f.op = 1 ∨ f.op = 3 then decide (f.va = 0 ∧ f.vb = 0)
  else if f.op = 2 then decide (f.vd = 0 ∧ f.vb = 0)
  else true

/-- A legal command by its fields: the negation of R60's (a), (b) and (c). -/
def Fields.wellFormed (f : Fields) : Bool :=
  decide (f.op = 1 ∨ f.op = 2 ∨ f.op = 3 ∨ f.op = 4) && decide (f.rsv = 0) && f.unusedZero

/-- The fields of a word (R57). -/
def Fields.ofWord (w : Word) : Fields :=
  { op := fieldOp w, vd := fieldVd w, va := fieldVa w, vb := fieldVb w, rsv := fieldRsv w }

/-- An instruction is well formed when its word is a legal command. Every term of `Instr` is: its operands are the four
register names and nothing else. -/
def Instr.wellFormed (i : Instr) : Bool := (Fields.ofWord (encodeWord i)).wellFormed

namespace Machine

/-- The labels a host program marks. -/
def hostLabels : List HostStmt → List Nat
  | [] => []
  | .label l :: p => l :: hostLabels p
  | _ :: p => hostLabels p

/-- A statement's jump, if it has one, is to a marked label. -/
def HostStmt.jumpOk (labels : List Nat) : HostStmt → Bool
  | .goto l => labels.contains l
  | .ifGoto _ l => labels.contains l
  | .wr _ _ | .rd _ _ | .label _ | .halt => true

/-- A host program marks no label twice and jumps only to labels it marks. R64 gives other programs no meaning of their own;
to call them ill formed is the model's DESIGN CHOICE (notes/assumptions/12.md). -/
def hostProgramOk (p : List HostStmt) : Bool :=
  decide (hostLabels p).Nodup && p.all (HostStmt.jumpOk (hostLabels p))

/-- The registers of `ENCRYPT Vp, Vk, Vc` must satisfy p != k and c != k (R68). -/
def encryptOk (p k c : VReg) : Bool := decide (p ≠ k ∧ c ≠ k)

end Machine

end Sys2Proof
end

