-- ==== Sys2Proof/Certificates/Slice0/Obligations.lean ====
section
/-! DEFINITION. What is claimed of the block, for the provers: each statement formalises the numbered rules of spec/ its
docstring names. -/

open Sys2Proof Sys2Proof.Machine

/-! ### Encoding (spec/30_encoding.md) -/

/-- R62: the words of its table decode to the commands it names. -/
def Obligations.EncodingExamplesDecode : Prop :=
  decodeWord 0x00000001 = .ok (.encode .v0) ∧ decodeWord 0x00000011 = .ok (.encode .v1) ∧
  decodeWord 0x00000031 = .ok (.encode .v3) ∧ decodeWord 0x00000002 = .ok (.decode .v0) ∧
  decodeWord 0x00000082 = .ok (.decode .v2) ∧ decodeWord 0x000000C2 = .ok (.decode .v3) ∧
  decodeWord 0x00000013 = .ok (.keygen .v1) ∧ decodeWord 0x00000023 = .ok (.keygen .v2) ∧
  decodeWord 0x00000124 = .ok (.xor .v2 .v0 .v1) ∧ decodeWord 0x000001B4 = .ok (.xor .v3 .v2 .v1) ∧
  decodeWord 0x00000004 = .ok (.xor .v0 .v0 .v0) ∧ decodeWord 0x000003F4 = .ok (.xor .v3 .v3 .v3)

/-- R63: the assembler value of every command, with each register's number at its field. -/
def Obligations.AssemblerValue : Prop :=
  ∀ d a b : VReg,
    encodeWord (.encode d) = BitVec.ofNat 32 (0x1 + VReg.index d * 16) ∧
    encodeWord (.decode a) = BitVec.ofNat 32 (0x2 + VReg.index a * 64) ∧
    encodeWord (.keygen d) = BitVec.ofNat 32 (0x3 + VReg.index d * 16) ∧
    encodeWord (.xor d a b) = BitVec.ofNat 32 (0x4 + VReg.index d * 16 + VReg.index a * 64 + VReg.index b * 256)

/-- R59: a word decodes to an instruction exactly when it is that instruction's encoding, so no bit of any of the 2^32
words is dropped and none has two readings. -/
def Obligations.DecodeEncodeAgree : Prop :=
  ∀ (w : Word) (i : Instr), decodeWord w = .ok i ↔ encodeWord i = w

/-- R58: a word selects a command of a row when w AND mask = match, and then the decoder reads that command with the
operands at their fields; a word that selects no row is illegal. -/
def Obligations.DecodeFollowsRows : Prop :=
  ∀ w : Word,
    (w &&& 0xFFFFFFCF = 0x00000001 ↔ decodeWord w = .ok (.encode (VReg.ofBits (w.extractLsb' 4 2)))) ∧
    (w &&& 0xFFFFFF3F = 0x00000002 ↔ decodeWord w = .ok (.decode (VReg.ofBits (w.extractLsb' 6 2)))) ∧
    (w &&& 0xFFFFFFCF = 0x00000003 ↔ decodeWord w = .ok (.keygen (VReg.ofBits (w.extractLsb' 4 2)))) ∧
    (w &&& 0xFFFFFC0F = 0x00000004 ↔
      decodeWord w = .ok (.xor (VReg.ofBits (w.extractLsb' 4 2)) (VReg.ofBits (w.extractLsb' 6 2))
        (VReg.ofBits (w.extractLsb' 8 2)))) ∧
    ((∃ e, decodeWord w = .error e) ↔
      w &&& 0xFFFFFFCF ≠ 0x00000001 ∧ w &&& 0xFFFFFF3F ≠ 0x00000002 ∧ w &&& 0xFFFFFFCF ≠ 0x00000003 ∧
      w &&& 0xFFFFFC0F ≠ 0x00000004)

/-- R59: exactly 76 words are legal commands. -/
def Obligations.SeventySixLegalWords : Prop :=
  ∃ ws : List Word, ws.length = 76 ∧ ws.Nodup ∧ ∀ w : Word, w ∈ ws ↔ ∃ i, decodeWord w = .ok i

/-- R60: a word is illegal exactly for one of its reasons (a) reserved opcode, (b) a reserved bit, (c) a nonzero field the
opcode does not use. -/
def Obligations.IllegalWords : Prop :=
  ∀ w : Word, (∃ e, decodeWord w = .error e) ↔
    (w.extractLsb' 0 4 = 0 ∨ 5 ≤ (w.extractLsb' 0 4).toNat) ∨
    (∃ k, 10 ≤ k ∧ k < 32 ∧ w.getLsbD k = true) ∨
    ((w.extractLsb' 0 4 = 1 ∨ w.extractLsb' 0 4 = 3) ∧ (w.extractLsb' 6 2 ≠ 0 ∨ w.extractLsb' 8 2 ≠ 0)) ∨
    (w.extractLsb' 0 4 = 2 ∧ (w.extractLsb' 4 2 ≠ 0 ∨ w.extractLsb' 8 2 ≠ 0))

/-! ### Bits and bytes (spec/00_scope.md R11) -/

/-- R11: val8 is the sum of g[k] * 2^(7-k), bits8 lists the bits of c from c[7] down, and each undoes the other. -/
def Obligations.Val8Bits8Inverse : Prop :=
  (∀ g : Nat → Bool, (val8 g).toNat = ((List.range 8).map (fun k => (g k).toNat * 2 ^ (7 - k))).sum) ∧
  (∀ (c : Word) (k : Nat), k < 8 → bits8 c k = c.getLsbD (7 - k)) ∧
  (∀ c : Word, c.toNat ≤ 255 → (val8 (bits8 c)).toNat = c.toNat) ∧
  (∀ (g : Nat → Bool) (k : Nat), k < 8 → bits8 ((val8 g).setWidth 32) k = g k) ∧
  (List.range 8).map (bits8 65) = [false, true, false, false, false, false, false, true]

/-! ### Registers on the bus (spec/10_state.md, spec/20_memory.md) -/

/-- R27: ID reads its constant in every state, and a write to it is a bus error. -/
def Obligations.IdRegister : Prop :=
  ∀ s : State, s.busRead 0x00000 = some 0x4F545001 ∧ ∀ v, s.busWrite 0x00000 v = none

/-- R28: CAP reads NMAX in every state, and a write to it is a bus error. -/
def Obligations.CapRegister : Prop :=
  ∀ s : State, s.cfg.Legal →
    (∃ v, s.busRead 0x00004 = some v ∧ v.toNat = s.cfg.nmax ∧ v.toNat / 8 = tmaxOf s.cfg) ∧
    ∀ v, s.busWrite 0x00004 v = none

/-- R29: the bits of the word a read of STATUS returns, in every state, and that a write is a bus error. -/
def Obligations.StatusRegister : Prop :=
  ∀ s : State, (∃ v, s.busRead 0x0000C = some v ∧ v.getLsbD 0 = s.busy ∧ v.getLsbD 1 = s.done ∧
      v.extractLsb' 2 2 = 0 ∧ v.extractLsb' 4 4 = s.err ∧ v.extractLsb' 8 24 = 0) ∧
    ∀ v, s.busWrite 0x0000C v = none

/-- R40: what each read of the bus returns, and that every other read is a bus error. -/
def Obligations.BusReadValues : Prop :=
  ∀ s : State, s.cfg.Legal →
    s.busRead 0x00000 = some 0x4F545001 ∧ s.busRead 0x00004 = some (BitVec.ofNat 32 s.cfg.nmax) ∧
    s.busRead 0x00008 = some s.cmd ∧ s.busRead 0x0000C = some s.statusWord ∧ s.busRead 0x00010 = some s.errinfo ∧
    (s.busy = false →
      s.busRead 0x00014 = some s.arg ∧ s.busRead 0x00018 = some s.tlen ∧
      (∀ r : VReg, s.busRead (BitVec.ofNat 20 (0x20 + 4 * VReg.index r)) = some (s.vlen r)) ∧
      (∀ (r : VReg) (w : Nat), w < s.cfg.nmax / 32 →
        ∃ v, s.busRead (BitVec.ofNat 20 (0x10000 * (VReg.index r + 1) + 4 * w)) = some v ∧
          ∀ b, b < 32 → v.getLsbD b = s.vbit r (32 * w + 31 - b)) ∧
      (∀ j, j < s.cfg.nmax / 8 → s.busRead (BitVec.ofNat 20 (0x80000 + 4 * j)) = some (s.text j)))

/-- R43: every misaligned access is a bus error, whatever the state and whatever lies there. -/
def Obligations.MisalignedAccess : Prop :=
  ∀ (s : State) (a : Offset) (v : Word), a.extractLsb' 0 2 ≠ 0 → s.busRead a = none ∧ s.busWrite a v = none

/-- R40, R42, R43: a read is a bus error when it is misaligned, when a command is in flight and it is not one of the five
registers, and when nothing is mapped there; otherwise it answers. -/
def Obligations.BusReadErrors : Prop :=
  ∀ (s : State) (a : Offset), s.cfg.Legal →
    (s.busRead a = none ↔
      a.toNat % 4 ≠ 0 ∨ (s.busy = true ∧ 0x10 < a.toNat) ∨
      ¬ (a.toNat < 0x1C ∨ (0x20 ≤ a.toNat ∧ a.toNat < 0x30) ∨
        (∃ r : VReg, 0x10000 * (VReg.index r + 1) ≤ a.toNat ∧
          a.toNat < 0x10000 * (VReg.index r + 1) + s.cfg.nmax / 8) ∨
        (0x80000 ≤ a.toNat ∧ a.toNat < 0x80000 + s.cfg.nmax / 2)))

/-- R41, R42, R43, R45: a write is a bus error when a command is in flight, when it is misaligned, to ID, CAP, STATUS or
ERRINFO, and when nothing is mapped there; otherwise it takes effect. -/
def Obligations.BusWriteErrors : Prop :=
  ∀ (s : State) (a : Offset) (v : Word), s.cfg.Legal →
    (s.busWrite a v = none ↔
      s.busy = true ∨ a.toNat % 4 ≠ 0 ∨
      ¬ (a.toNat = 0x8 ∨ a.toNat = 0x14 ∨ a.toNat = 0x18 ∨ (0x20 ≤ a.toNat ∧ a.toNat < 0x30) ∨
        (∃ r : VReg, 0x10000 * (VReg.index r + 1) ≤ a.toNat ∧
          a.toNat < 0x10000 * (VReg.index r + 1) + s.cfg.nmax / 8) ∨
        (0x80000 ≤ a.toNat ∧ a.toNat < 0x80000 + s.cfg.nmax / 2)))

/-- R17, R20, R21, R41: with nothing in flight, any value written to ARG, TLEN or VLENr is read back unchanged, and
nothing else changes. -/
def Obligations.LengthRegisterWrites : Prop :=
  ∀ (s : State) (v : Word), s.busy = false →
    s.busWrite 0x00014 v = some { s with arg := v } ∧ State.busRead { s with arg := v } 0x00014 = some v ∧
    s.busWrite 0x00018 v = some { s with tlen := v } ∧ State.busRead { s with tlen := v } 0x00018 = some v ∧
    ∀ r : VReg, ∃ t, s.busWrite (BitVec.ofNat 20 (0x20 + 4 * VReg.index r)) v = some t ∧
      t.busRead (BitVec.ofNat 20 (0x20 + 4 * VReg.index r)) = some v ∧ t.vlen r = v ∧ (∀ q, q ≠ r → t.vlen q = s.vlen q) ∧
      s.SameOutside t ∧ t.mem = s.mem ∧ t.tlen = s.tlen ∧
      t.busy = s.busy ∧ t.done = s.done ∧ t.err = s.err ∧ t.errinfo = s.errinfo ∧ t.source = s.source

/-- R38, R41: with nothing in flight, a write to storage word w of register r changes all 32 of its bits, bit b of the
value at element 32 w + 31 - b, and no other byte of storage and no register, VLEN among them. -/
def Obligations.VectorWindowWrite : Prop :=
  ∀ (s : State) (r : VReg) (w : Nat) (v : Word), s.cfg.Legal → s.busy = false → w < s.cfg.nmax / 32 →
    ∃ m, s.busWrite (BitVec.ofNat 20 (0x10000 * (VReg.index r + 1) + 4 * w)) v = some { s with mem := m } ∧
      (∀ b, b < 32 → State.vbit { s with mem := m } r (32 * w + 31 - b) = v.getLsbD b) ∧
      (∀ a, ¬ (0x10000 * (VReg.index r + 1) + 4 * w ≤ a ∧ a < 0x10000 * (VReg.index r + 1) + 4 * w + 4) →
        Memory.get m a = Memory.get s.mem a)

/-- R39, R41: with nothing in flight, a write to text word j sets T[j] to the value, and changes no other byte of storage
and no register. -/
def Obligations.TextWindowWrite : Prop :=
  ∀ (s : State) (j : Nat) (v : Word), s.cfg.Legal → s.busy = false → j < s.cfg.nmax / 8 →
    ∃ m, s.busWrite (BitVec.ofNat 20 (0x80000 + 4 * j)) v = some { s with mem := m } ∧
      State.text { s with mem := m } j = v ∧
      (∀ a, ¬ (0x80000 + 4 * j ≤ a ∧ a < 0x80000 + 4 * j + 4) → Memory.get m a = Memory.get s.mem a)

/-- R48: a write to anything but CMD is idempotent: writing the same value again leaves the same state. -/
def Obligations.WritesIdempotent : Prop :=
  ∀ (s t : State) (a : Offset) (v : Word), a ≠ 0x00008 → s.busWrite a v = some t → t.busWrite a v = some t

/-- R106: a write to CMD with nothing in flight issues the word, whatever it is, and changes nothing else; one while a
command is in flight is a bus error. -/
def Obligations.IssueCommand : Prop :=
  ∀ (s : State) (v : Word),
    (s.busy = false → s.busWrite 0x00008 v =
      some { s with cmd := v, busy := true, done := false, err := 0, errinfo := 0 }) ∧
    (s.busy = true → s.busWrite 0x00008 v = none)

/-! ### ENCODE and DECODE (spec/40_codec.md) -/

/-- R72, R75: what ENCODE does, and which words with its opcode are illegal: CAPACITY, then ENCODING at the lowest
offending index, both with no other effect; else the 8-bit groups of the characters in order, zeros above them, and
the length. -/
def Obligations.EncodeEffect : Prop :=
  ∀ (s : State) (d : VReg), s.cfg.Legal →
    decodeWord (0x1 ||| d.bits.setWidth 32 <<< 4) = .ok (.encode d) ∧
    (∀ w : Word, w.extractLsb' 0 4 = 0x1 →
      (w.extractLsb' 6 2 ≠ 0 ∨ w.extractLsb' 8 2 ≠ 0 ∨ w.extractLsb' 10 22 ≠ 0) →
      ∃ e, decodeWord w = .error e) ∧
    (tmaxOf s.cfg < s.tlen.toNat → ∃ t, exec (.encode d) s = .next t ∧ s.FailedWith t .capacity 0) ∧
    (∀ j, s.tlen.toNat ≤ tmaxOf s.cfg → j < s.tlen.toNat → 255 < (s.text j).toNat →
      (∀ k, k < j → (s.text k).toNat ≤ 255) →
      ∃ t, exec (.encode d) s = .next t ∧ s.FailedWith t .encoding (BitVec.ofNat 32 j)) ∧
    (s.tlen.toNat ≤ tmaxOf s.cfg → (∀ j, j < s.tlen.toNat → (s.text j).toNat ≤ 255) →
      ∃ t, exec (.encode d) s = .next t ∧ t.Completed .none 0 ∧ (t.vlen d).toNat = 8 * s.tlen.toNat ∧
        (∀ j k, j < s.tlen.toNat → k < 8 → t.vbit d (8 * j + k) = (s.text j).getLsbD (7 - k)) ∧
        (∀ i, 8 * s.tlen.toNat ≤ i → i < s.cfg.nmax → t.vbit d i = false))

/-- R47: after ENCODE, storage word w of the destination reads as the packed characters, the first the most
significant, a missing one as 0. -/
def Obligations.EncodePacksWords : Prop :=
  ∀ (s t : State) (d : VReg) (w : Nat), s.cfg.Legal → s.tlen.toNat ≤ tmaxOf s.cfg →
    (∀ j, j < s.tlen.toNat → (s.text j).toNat ≤ 255) → exec (.encode d) s = .next t → w < s.cfg.nmax / 32 →
    ∃ v, t.busRead (BitVec.ofNat 20 (0x10000 * (VReg.index d + 1) + 4 * w)) = some v ∧
      v.toNat = (if 4 * w < s.tlen.toNat then (s.text (4 * w)).toNat * 2 ^ 24 else 0)
        + (if 4 * w + 1 < s.tlen.toNat then (s.text (4 * w + 1)).toNat * 2 ^ 16 else 0)
        + (if 4 * w + 2 < s.tlen.toNat then (s.text (4 * w + 2)).toNat * 2 ^ 8 else 0)
        + (if 4 * w + 3 < s.tlen.toNat then (s.text (4 * w + 3)).toNat else 0)

/-- R74, R75: what DECODE does, and which words with its opcode are illegal: CAPACITY, then DECODING, both with no other
effect; else the characters of the 8-bit groups in order, zeros above them, and TLEN. -/
def Obligations.DecodeEffect : Prop :=
  ∀ (s : State) (a : VReg), s.cfg.Legal →
    decodeWord (0x2 ||| a.bits.setWidth 32 <<< 6) = .ok (.decode a) ∧
    (∀ w : Word, w.extractLsb' 0 4 = 0x2 →
      (w.extractLsb' 4 2 ≠ 0 ∨ w.extractLsb' 8 2 ≠ 0 ∨ w.extractLsb' 10 22 ≠ 0) →
      ∃ e, decodeWord w = .error e) ∧
    (s.cfg.nmax < (s.vlen a).toNat → ∃ t, exec (.decode a) s = .next t ∧ s.FailedWith t .capacity 0) ∧
    ((s.vlen a).toNat ≤ s.cfg.nmax → (s.vlen a).toNat % 8 ≠ 0 →
      ∃ t, exec (.decode a) s = .next t ∧ s.FailedWith t .decoding 0) ∧
    ((s.vlen a).toNat ≤ s.cfg.nmax → (s.vlen a).toNat % 8 = 0 →
      ∃ t, exec (.decode a) s = .next t ∧ t.Completed .none 0 ∧ t.tlen.toNat = (s.vlen a).toNat / 8 ∧
        (∀ j, j < (s.vlen a).toNat / 8 → (t.text j).toNat < 256 ∧
          ∀ k, k < 8 → (t.text j).getLsbD (7 - k) = s.vbit a (8 * j + k)) ∧
        (∀ j, (s.vlen a).toNat / 8 ≤ j → j < tmaxOf s.cfg → t.text j = 0) ∧
        t.vlen a = s.vlen a ∧ ∀ i, i < s.cfg.nmax → t.vbit a i = s.vbit a i)

/-- The frame of DECODE (R31, R74): nothing but T, TLEN and the status changes. -/
def Obligations.DecodeFrame : Prop :=
  ∀ (s t : State) (a : VReg), exec (.decode a) s = .next t →
    s.SameOutside t ∧ t.source = s.source ∧ (∀ r, t.vlen r = s.vlen r) ∧
    (∀ x, ¬ (tbase ≤ x ∧ x < tbase + 4 * tmaxOf s.cfg) → Memory.get t.mem x = Memory.get s.mem x) ∧
    t.busy = false ∧ t.done = true

/-- R77: ENCODE then DECODE of the same register restores TLEN and the text, and clears the words above it. -/
def Obligations.TextRoundTrip : Prop :=
  ∀ (s : State) (r : VReg), s.cfg.Legal → s.tlen.toNat ≤ tmaxOf s.cfg →
    (∀ j, j < s.tlen.toNat → (s.text j).toNat ≤ 255) →
    ∃ s1 s2, runCommand (.encode r) s = .next s1 ∧ runCommand (.decode r) s1 = .next s2 ∧ s2.err = 0 ∧
      s2.tlen = s.tlen ∧ s2.textSeq = s.textSeq ∧ (∀ j, j < s.tlen.toNat → s2.text j = s.text j) ∧
      (∀ j, s.tlen.toNat ≤ j → j < tmaxOf s.cfg → s2.text j = 0)

/-- R78: DECODE then ENCODE of the same register restores VLEN and the sequence, and clears the bits above it. -/
def Obligations.BitsRoundTrip : Prop :=
  ∀ (s : State) (r : VReg), s.cfg.Legal → (s.vlen r).toNat ≤ s.cfg.nmax → (s.vlen r).toNat % 8 = 0 →
    ∃ s1 s2, runCommand (.decode r) s = .next s1 ∧ runCommand (.encode r) s1 = .next s2 ∧ s2.err = 0 ∧
      s2.vlen r = s.vlen r ∧ (∀ i, i < (s.vlen r).toNat → s2.vbit r i = s.vbit r i) ∧
      (∀ i, (s.vlen r).toNat ≤ i → i < s.cfg.nmax → s2.vbit r i = false)

/-- R79: a successful ENCODE sets VLEN to 8 TLEN, a multiple of 8, and a successful DECODE sets TLEN to VLEN / 8. -/
def Obligations.CodecLengthLaw : Prop :=
  ∀ (s t : State) (r : VReg), s.cfg.Legal →
    (exec (.encode r) s = .next t → t.err = 0 →
      (t.vlen r).toNat = 8 * s.tlen.toNat ∧ (t.vlen r).toNat % 8 = 0) ∧
    (exec (.decode r) s = .next t → t.err = 0 → t.tlen.toNat = (s.vlen r).toNat / 8)

/-! ### KEYGEN (spec/41_keygen.md) -/

/-- R81, R83: what KEYGEN does, and which words with its opcode are illegal: CAPACITY with no other effect and no entropy
consumed; else, when the source has delivered the draw e of ARG bits, seq(d) = e, zeros above it, the length, and ARG
unchanged. A stream with the beats it needs delivers R83's bits of them, and those beats are consumed. -/
def Obligations.KeygenEffect : Prop :=
  ∀ (s : State) (d : VReg), s.cfg.Legal →
    decodeWord (0x3 ||| d.bits.setWidth 32 <<< 4) = .ok (.keygen d) ∧
    (∀ w : Word, w.extractLsb' 0 4 = 0x3 →
      (w.extractLsb' 6 2 ≠ 0 ∨ w.extractLsb' 8 2 ≠ 0 ∨ w.extractLsb' 10 22 ≠ 0) →
      ∃ e, decodeWord w = .error e) ∧
    (s.cfg.nmax < s.arg.toNat → ∃ t, exec (.keygen d) s = .next t ∧ s.FailedWith t .capacity 0) ∧
    (∀ (e : List Bool) (src : EntropySource), s.arg.toNat ≤ s.cfg.nmax →
      s.source.draw s.cfg s.arg.toNat = some (e, src) →
      ∃ t, exec (.keygen d) s = .next t ∧ t.Completed .none 0 ∧ t.vlen d = s.arg ∧ t.arg = s.arg ∧
        e.length = s.arg.toNat ∧ t.seq d = e ∧ (∀ i, s.arg.toNat ≤ i → i < s.cfg.nmax → t.vbit d i = false) ∧
        t.source = src) ∧
    (∀ beats : List Word, s.source = .stream beats →
      (s.arg.toNat + s.cfg.entW - 1) / s.cfg.entW ≤ beats.length →
      ∃ e, s.source.draw s.cfg s.arg.toNat =
          some (e, .stream (beats.drop ((s.arg.toNat + s.cfg.entW - 1) / s.cfg.entW))) ∧
        ∀ i, i < s.arg.toNat →
          e.getD i false = (beats.getD (i / s.cfg.entW) 0).getLsbD (s.cfg.entW - 1 - i % s.cfg.entW))

/-- R7, R82: KEYGEN takes its bits as one draw: of two blocks that differ in ENT_W and in the source alone, and whose sources
deliver the same draw, the results are the same but for those two. A live source, of the model's two kinds
(notes/assumptions/6.md), delivers every draw, and the same one whatever ENT_W is. -/
def Obligations.KeygenTakesOneDraw : Prop :=
  (∀ (s : State) (d : VReg) (w : Nat) (so src src' : EntropySource) (e : List Bool), s.arg.toNat ≤ s.cfg.nmax →
    s.source.draw s.cfg s.arg.toNat = some (e, src) →
    so.draw { s.cfg with entW := w } s.arg.toNat = some (e, src') →
    ∃ t, exec (.keygen d) s = .next t ∧
      exec (.keygen d) { s with cfg := { s.cfg with entW := w }, source := so } =
        .next { t with cfg := { s.cfg with entW := w }, source := src' }) ∧
  (∀ (c c' : Config) (L pos : Nat), ∃ e, e.length = L ∧
    EntropySource.draw c L (.live pos) = some (e, .live (pos + L)) ∧
    EntropySource.draw c' L (.live pos) = some (e, .live (pos + L)))

/-- R87: a KEYGEN that passes its CAPACITY check stays in flight while the source has delivered too few beats. That it then
answers its own state, with the beats left standing in the stream, is the model's (DEDUCED, notes/assumptions/8.md). -/
def Obligations.KeygenWaits : Prop :=
  ∀ (s : State) (d : VReg) (beats : List Word), s.cfg.Legal → s.arg.toNat ≤ s.cfg.nmax → s.source = .stream beats →
    beats.length * s.cfg.entW < s.arg.toNat → exec (.keygen d) s = .next s

/-- R82: KEYGEN admits every draw: for every bit string of the requested length there are beats that make it the key. -/
def Obligations.KeygenAdmitsEveryDraw : Prop :=
  ∀ (s : State) (d : VReg) (e : List Bool), s.cfg.Legal → s.arg.toNat ≤ s.cfg.nmax → e.length = s.arg.toNat →
    ∃ (beats : List Word) (t : State), exec (.keygen d) { s with source := .stream beats } = .next t ∧ t.err = 0 ∧
      t.seq d = e

/-- R83, R85: two KEYGEN commands, of any two lengths, take disjoint segments of the beat stream: the first its first beats,
the second those after them, and both segments are consumed whole. -/
def Obligations.KeygenSegmentsDisjoint : Prop :=
  ∀ (s : State) (d d' : VReg) (l : Word) (beats : List Word) (n n' : Nat), s.cfg.Legal → s.source = .stream beats →
    s.arg.toNat ≤ s.cfg.nmax → l.toNat ≤ s.cfg.nmax → n = (s.arg.toNat + s.cfg.entW - 1) / s.cfg.entW →
    n' = (l.toNat + s.cfg.entW - 1) / s.cfg.entW → n + n' ≤ beats.length →
    ∃ s1 s2, runCommand (.keygen d) s = .next s1 ∧ runCommand (.keygen d') { s1 with arg := l } = .next s2 ∧
      s1.err = 0 ∧ s2.err = 0 ∧ s1.vlen d = s.arg ∧ s2.vlen d' = l ∧
      (∀ i, i < s.arg.toNat →
        s1.vbit d i = (beats.getD (i / s.cfg.entW) 0).getLsbD (s.cfg.entW - 1 - i % s.cfg.entW)) ∧
      (∀ i, i < l.toNat →
        s2.vbit d' i = (beats.getD (n + i / s.cfg.entW) 0).getLsbD (s.cfg.entW - 1 - i % s.cfg.entW)) ∧
      s1.source = .stream (beats.drop n) ∧ s2.source = .stream (beats.drop (n + n'))

/-- R139: KEYGEN with ARG = 0, or ENCODE with TLEN = 0, clears the register: every storage bit 0 and VLEN = 0. -/
def Obligations.KeyResidueCleared : Prop :=
  ∀ (s : State) (r : VReg), s.cfg.Legal →
    (s.arg = 0 → ∃ t, exec (.keygen r) s = .next t ∧ t.err = 0 ∧ t.vlen r = 0 ∧ t.source = s.source ∧
      ∀ i, i < s.cfg.nmax → t.vbit r i = false) ∧
    (s.tlen = 0 → ∃ t, exec (.encode r) s = .next t ∧ t.err = 0 ∧ t.vlen r = 0 ∧
      ∀ i, i < s.cfg.nmax → t.vbit r i = false)

/-! ### XOR (spec/42_combiner.md) -/

/-- R89, R90: what XOR does, and which words with its opcode are illegal: CAPACITY, then LENGTH, both with no other
effect; else the element-wise exclusive-or of the sources as they were, zeros above it, and the length, whichever of
d, a, b coincide. -/
def Obligations.XorEffect : Prop :=
  ∀ (s : State) (d a b : VReg), s.cfg.Legal →
    decodeWord (0x4 ||| d.bits.setWidth 32 <<< 4 ||| a.bits.setWidth 32 <<< 6 ||| b.bits.setWidth 32 <<< 8) =
      .ok (.xor d a b) ∧
    (∀ w : Word, w.extractLsb' 0 4 = 0x4 →
      (w.extractLsb' 10 22 ≠ 0) →
      ∃ e, decodeWord w = .error e) ∧
    (s.cfg.nmax < (s.vlen a).toNat ∨ s.cfg.nmax < (s.vlen b).toNat →
      ∃ t, exec (.xor d a b) s = .next t ∧ s.FailedWith t .capacity 0) ∧
    ((s.vlen a).toNat ≤ s.cfg.nmax → (s.vlen b).toNat ≤ s.cfg.nmax → s.vlen a ≠ s.vlen b →
      ∃ t, exec (.xor d a b) s = .next t ∧ s.FailedWith t .length 0) ∧
    ((s.vlen a).toNat ≤ s.cfg.nmax → s.vlen a = s.vlen b →
      ∃ t, exec (.xor d a b) s = .next t ∧ t.Completed .none 0 ∧ t.vlen d = s.vlen a ∧
        (∀ i, i < (s.vlen a).toNat → t.vbit d i = (s.vbit a i ^^ s.vbit b i)) ∧
        (∀ i, (s.vlen a).toNat ≤ i → i < s.cfg.nmax → t.vbit d i = false))

/-- The frame of the commands that write a vector register (R31, R75, R90; for KEYGEN also R82, R83, R85, R87): nothing but
that register, its length, the status and, for KEYGEN, the source changes. That a KEYGEN whose draw is not delivered answers
its own state is the model's (DEDUCED, notes/assumptions/8.md). -/
def Obligations.VectorCommandFrame : Prop :=
  ∀ (s t : State) (d : VReg) (i : Instr),
    (i = .encode d ∨ i = .keygen d ∨ ∃ a b, i = .xor d a b) → exec i s = .next t →
    s.SameOutside t ∧ t.tlen = s.tlen ∧ (∀ r, r ≠ d → t.vlen r = s.vlen r) ∧
    (∀ x, ¬ (vbase d ≤ x ∧ x < vbase d + s.cfg.nmax / 8) → Memory.get t.mem x = Memory.get s.mem x) ∧
    (i ≠ .keygen d → t.source = s.source ∧ t.busy = false ∧ t.done = true) ∧
    (i = .keygen d → t = s ∨ (t.busy = false ∧ t.done = true ∧
      (t.source = s.source ∨ (∃ e, s.source.draw s.cfg s.arg.toNat = some (e, t.source)) ∧
        ∀ beats, s.source = .stream beats →
          t.source = .stream (beats.drop ((s.arg.toNat + s.cfg.entW - 1) / s.cfg.entW)))))

/-- R93: for equal lengths and d other than b, XOR Vd, Va, Vb and then XOR Vd, Vd, Vb leave seq(d) = the original
seq(a). -/
def Obligations.XorSelfInverse : Prop :=
  ∀ (s : State) (d a b : VReg), s.cfg.Legal → s.vlen a = s.vlen b → (s.vlen a).toNat ≤ s.cfg.nmax → d ≠ b →
    ∃ s1 s2, runCommand (.xor d a b) s = .next s1 ∧ runCommand (.xor d d b) s1 = .next s2 ∧ s2.err = 0 ∧
      s2.seq d = s.seq a

/-- R94: XOR is commutative, XOR with an all-zero sequence of equal length leaves the other, and XOR of a register with
itself gives zeros of its length. -/
def Obligations.XorLaws : Prop :=
  ∀ (s : State) (d a b : VReg), s.cfg.Legal → s.vlen a = s.vlen b → (s.vlen a).toNat ≤ s.cfg.nmax →
    ∃ t t' u, exec (.xor d a b) s = .next t ∧ exec (.xor d b a) s = .next t' ∧ exec (.xor d a a) s = .next u ∧
      t.seq d = t'.seq d ∧
      ((∀ i, i < (s.vlen b).toNat → s.vbit b i = false) → t.seq d = s.seq a) ∧
      u.vlen d = s.vlen a ∧ (∀ i, i < s.cfg.nmax → u.vbit d i = false)

/-! ### Commands in general (spec/20_memory.md R49, spec/60_exceptions.md) -/

/-- R49: storage beyond the operand lengths does not affect a result: states that agree below them give the same outcome
and the same destination. -/
def Obligations.StorageBeyondLengthUnread : Prop :=
  ∀ (s s' : State) (d a b : VReg), s.cfg.Legal → s'.cfg = s.cfg →
    ((s'.vlen a = s.vlen a ∧ s'.vlen b = s.vlen b ∧ (∀ i, i < (s.vlen a).toNat → s'.vbit a i = s.vbit a i) ∧
        (∀ i, i < (s.vlen b).toNat → s'.vbit b i = s.vbit b i)) →
      ∃ t t', exec (.xor d a b) s = .next t ∧ exec (.xor d a b) s' = .next t' ∧ t'.err = t.err ∧
        (t.err = 0 → t'.vlen d = t.vlen d ∧ ∀ i, i < s.cfg.nmax → t'.vbit d i = t.vbit d i)) ∧
    ((s'.tlen = s.tlen ∧ ∀ j, j < s.tlen.toNat → s'.text j = s.text j) →
      ∃ t t', exec (.encode d) s = .next t ∧ exec (.encode d) s' = .next t' ∧ t'.err = t.err ∧
        t'.errinfo = t.errinfo ∧
        (t.err = 0 → t'.vlen d = t.vlen d ∧ ∀ i, i < s.cfg.nmax → t'.vbit d i = t.vbit d i)) ∧
    ((s'.vlen a = s.vlen a ∧ ∀ i, i < (s.vlen a).toNat → s'.vbit a i = s.vbit a i) →
      ∃ t t', exec (.decode a) s = .next t ∧ exec (.decode a) s' = .next t' ∧ t'.err = t.err ∧
        (t.err = 0 → t'.tlen = t.tlen ∧ ∀ j, j < tmaxOf s.cfg → t'.text j = t.text j))

/-- R112: a command whose operand length exceeds the storage completes with CAPACITY and no other effect. -/
def Obligations.CapacityOutcome : Prop :=
  ∀ (s : State) (d a b : VReg),
    (tmaxOf s.cfg < s.tlen.toNat → exec (.encode d) s = .next (s.fail .capacity 0)) ∧
    (s.cfg.nmax < (s.vlen a).toNat → exec (.decode a) s = .next (s.fail .capacity 0)) ∧
    (s.cfg.nmax < s.arg.toNat → exec (.keygen d) s = .next (s.fail .capacity 0)) ∧
    (s.cfg.nmax < (s.vlen a).toNat ∨ s.cfg.nmax < (s.vlen b).toNat →
      exec (.xor d a b) s = .next (s.fail .capacity 0)) ∧
    s.FailedWith (s.fail .capacity 0) .capacity 0 ∧ ErrCode.capacity.code = 5

/-- R108: on an outcome other than NONE, no command changes anything but the status. -/
def Obligations.FailureIsAllOrNothing : Prop :=
  ∀ (i : Instr) (s t : State), s.err = 0 → exec i s = .next t → t.err ≠ 0 →
    t.busy = false ∧ t.done = true ∧ t = { s with busy := t.busy, done := t.done, err := t.err, errinfo := t.errinfo }

/-- R109: the outcome codes a completing command can write. -/
def Obligations.OutcomeCodes : Prop :=
  ∀ (i : Instr) (s t : State), exec i s = .next t → t.busy = false → s.busy = true →
    match i with
    | .encode _ => (t.err = 0 ∧ t.errinfo = 0) ∨
        (t.err = 1 ∧ 255 < (s.text t.errinfo.toNat).toNat ∧ t.errinfo.toNat < s.tlen.toNat) ∨
        (t.err = 5 ∧ t.errinfo = 0)
    | .decode _ => (t.err = 0 ∨ t.err = 2 ∨ t.err = 5) ∧ t.errinfo = 0
    | .keygen _ => (t.err = 0 ∨ t.err = 5) ∧ t.errinfo = 0
    | .xor _ _ _ => (t.err = 0 ∨ t.err = 3 ∨ t.err = 5) ∧ t.errinfo = 0

/-- R107, R111: in the engine's turn a word that decodes to no command completes with ILLEGAL and no other effect. That the
turn is the head of `sched`, and that the step takes it off, so that the effect is told from the state without it, is the
model's (DESIGN CHOICE, notes/assumptions/4.md). -/
def Obligations.IllegalOutcome : Prop :=
  ∀ (s : State) (ts : List Turn) (e : Illegal), s.busy = true → decodeWord s.cmd = .error e → s.sched = .engine :: ts →
    ∃ t, step s = .next t ∧ State.FailedWith { s with sched := ts } t .illegal 0

/-- R107: in the engine's turn the command in flight is completed as its instruction's meaning says, in one step; so is a
command just placed. What the model adds to R107: the turn is the head of `sched`, which the step takes off (DESIGN CHOICE,
notes/assumptions/4.md); with no turn fixed the engine moves when it is ready (DESIGN CHOICE, notes/assumptions/5.md); and
withFetchWord stands for the issue, with the engine's turn next, also where BUSY = 1 and it is no run of the block (DESIGN
CHOICE, notes/assumptions/16.md). -/
def Obligations.StepRunsDecoded : Prop :=
  (∀ (s : State) (ts : List Turn) (i : Instr), s.busy = true → decodeWord s.cmd = .ok i → s.sched = .engine :: ts →
    step s = exec i { s with sched := ts }) ∧
  (∀ (s : State) (i : Instr), s.engineReady = true → decodeWord s.cmd = .ok i → s.sched = [] → step s = exec i s) ∧
  (∀ (s : State) (i : Instr),
    step (s.withFetchWord 32 (encodeWord i).toNat) = exec i (s.issue (encodeWord i)))

/-! ### Host, bus errors and reset -/

/-- R45: while a command is in flight the host may read ID, CAP, CMD, STATUS and ERRINFO and nothing else, every write is
a bus error, and so a host's step leaves everything but the host as it was. -/
def Obligations.BusyBlockUndisturbed : Prop :=
  ∀ s : State, s.busy = true →
    (∀ a : Offset, s.busRead a ≠ none ↔ a = 0x00000 ∨ a = 0x00004 ∨ a = 0x00008 ∨ a = 0x0000C ∨ a = 0x00010) ∧
    (∀ (a : Offset) (v : Word), s.busWrite a v = none) ∧
    (∀ t, takeTurn .host s = .next t → t = { s with host := t.host })

/-- R44, R64: a host access that is refused, at whatever offset below 2^20 its expression denotes, is a fault of the host's
step, and nothing else faults: every fault is of the `RD` or the `WR` the host was at, at that statement's own offset, and
the read, or the write of that statement's own value, is refused there. -/
def Obligations.OnlyBusErrorsFault : Prop :=
  (∀ (s : State) (off : HostOffset) (e : HostValue), s.host.status = .running →
    s.host.prog[s.host.pc]? = some (.wr off e) → off.eval s.host.vars < 2 ^ 20 →
    s.busWrite (BitVec.ofNat 20 (off.eval s.host.vars)) (e.eval s.host.vars) = none →
    takeTurn .host s = .fault (.busError (BitVec.ofNat 20 (off.eval s.host.vars)))) ∧
  (∀ (s : State) (off : HostOffset) (x : Nat), s.host.status = .running →
    s.host.prog[s.host.pc]? = some (.rd off x) → off.eval s.host.vars < 2 ^ 20 →
    s.busRead (BitVec.ofNat 20 (off.eval s.host.vars)) = none →
    takeTurn .host s = .fault (.busError (BitVec.ofNat 20 (off.eval s.host.vars)))) ∧
  (∀ (q : Turn) (s : State) (f : Fault), takeTurn q s = .fault f →
    q = .host ∧ s.host.status = .running ∧ ∃ off : HostOffset, off.eval s.host.vars < 2 ^ 20 ∧
      f = .busError (BitVec.ofNat 20 (off.eval s.host.vars)) ∧
      ((∃ x, s.host.prog[s.host.pc]? = some (.rd off x) ∧
          s.busRead (BitVec.ofNat 20 (off.eval s.host.vars)) = none) ∨
        ∃ e, s.host.prog[s.host.pc]? = some (.wr off e) ∧
          s.busWrite (BitVec.ofNat 20 (off.eval s.host.vars)) (e.eval s.host.vars) = none))

/-- R40, R64: an answered read, at whatever offset below 2^20 its expression denotes, gives its value to the host's variable
and changes nothing else but the host. -/
def Obligations.HostReadStep : Prop :=
  ∀ (s : State) (off : HostOffset) (x : Nat) (v : Word), s.host.status = .running →
    s.host.prog[s.host.pc]? = some (.rd off x) → off.eval s.host.vars < 2 ^ 20 →
    s.busRead (BitVec.ofNat 20 (off.eval s.host.vars)) = some v →
    ∃ t, takeTurn .host s = .next t ∧ t = { s with host := t.host } ∧ t.host.pc = s.host.pc + 1 ∧
      Memory.get t.host.vars x = v ∧ (∀ y, y ≠ x → Memory.get t.host.vars y = Memory.get s.host.vars y) ∧
      t.host.prog = s.host.prog ∧ t.host.status = .running

/-- R41, R64: an accepted write, at whatever offset below 2^20 its expression denotes, has its effect on the block, and the
host goes on to its next statement. -/
def Obligations.HostWriteStep : Prop :=
  ∀ (s u : State) (off : HostOffset) (e : HostValue), s.host.status = .running →
    s.host.prog[s.host.pc]? = some (.wr off e) → off.eval s.host.vars < 2 ^ 20 →
    s.busWrite (BitVec.ofNat 20 (off.eval s.host.vars)) (e.eval s.host.vars) = some u →
    takeTurn .host s = .next { u with host := { s.host with pc := s.host.pc + 1 } }

/-- R38, R39, R65: with nothing in flight, `VW(r, w)` denotes storage word w of Vr and `TW(j)` text word j: `RD` gives its
variable that word and `WR` sets it. -/
def Obligations.HostWindowAccess : Prop :=
  ∀ (s : State) (r : VReg) (e f : HostValue) (x : Nat), s.cfg.Legal → s.host.status = .running → s.busy = false →
    ((e.eval s.host.vars).toNat < s.cfg.nmax / 32 →
      (s.host.prog[s.host.pc]? = some (.rd (.vword r e) x) → ∃ t, takeTurn .host s = .next t ∧
        ∀ b, b < 32 → (Memory.get t.host.vars x).getLsbD b =
          s.vbit r (32 * (e.eval s.host.vars).toNat + 31 - b)) ∧
      (s.host.prog[s.host.pc]? = some (.wr (.vword r e) f) → ∃ t, takeTurn .host s = .next t ∧
        ∀ b, b < 32 → t.vbit r (32 * (e.eval s.host.vars).toNat + 31 - b) = (f.eval s.host.vars).getLsbD b)) ∧
    ((e.eval s.host.vars).toNat < s.cfg.nmax / 8 →
      (s.host.prog[s.host.pc]? = some (.rd (.tword e) x) → ∃ t, takeTurn .host s = .next t ∧
        Memory.get t.host.vars x = s.text (e.eval s.host.vars).toNat) ∧
      (s.host.prog[s.host.pc]? = some (.wr (.tword e) f) → ∃ t, takeTurn .host s = .next t ∧
        t.text (e.eval s.host.vars).toNat = f.eval s.host.vars))

/-- R64: `GOTO l` goes to the statement marked `l`, and so does `IF cond GOTO l` when its condition holds; when it does not,
the host goes on. Neither changes the block. That a jump is a host step of its own is the model's (DESIGN CHOICE,
notes/assumptions/10.md), and so is that of two statements marked `l` the first is meant (DESIGN CHOICE,
notes/assumptions/12.md). -/
def Obligations.HostJumps : Prop :=
  ∀ (s : State) (l k : Nat) (c : HostCond), s.host.status = .running → s.host.prog[k]? = some (.label l) →
    (∀ n, n < k → s.host.prog[n]? ≠ some (.label l)) →
    (s.host.prog[s.host.pc]? = some (.goto l) → takeTurn .host s = .next { s with host := { s.host with pc := k } }) ∧
    (s.host.prog[s.host.pc]? = some (.ifGoto c l) → c.holds s.host.vars = true →
      takeTurn .host s = .next { s with host := { s.host with pc := k } }) ∧
    (s.host.prog[s.host.pc]? = some (.ifGoto c l) → c.holds s.host.vars = false →
      takeTurn .host s = .next { s with host := { s.host with pc := s.host.pc + 1 } })

/-- R140: HALT with nothing in flight gives a final state with the block as it was; HALT with a command in flight does not
give one. That no step changes a final state, whatever turns are left, is how the model says that the run has ended
(DEDUCED, notes/assumptions/20.md). -/
def Obligations.HaltIsFinalWhenIdle : Prop :=
  (∀ s : State, s.host.status = .running → s.host.prog[s.host.pc]? = some .halt →
    ∃ t, takeTurn .host s = .next t ∧ t = { s with host := { s.host with status := t.host.status } } ∧
      (t.final = true ↔ s.busy = false)) ∧
  (∀ s : State, s.final = true → step s = .next s)

/-- R64, R140: a host that executes HALT with a command in flight is in no final state then. That it is in none after any
number of steps either, though the command completes or is reset, is the model's reading (DEDUCED,
notes/assumptions/20.md). -/
def Obligations.HaltInFlightNeverFinal : Prop :=
  (∀ s : State, s.host.status = .running → s.host.prog[s.host.pc]? = some .halt → s.busy = true →
    ∃ t, takeTurn .host s = .next t ∧ t.host.status = .haltedInFlight) ∧
  ∀ (n : Nat) (s t : State), s.host.status = .haltedInFlight → runSteps n s = .next t → t.final = false

/-- R22: nothing but an issue and reset writes CMD. -/
def Obligations.CmdWriters : Prop :=
  ∀ (q : Turn) (s t : State), takeTurn q s = .next t →
    t.cmd = s.cmd ∨ ((∃ taken, q = .reset taken) ∧ t.cmd = 0) ∨ (q = .host ∧ s.busy = false ∧ t.busy = true ∧ t.done = false)

/-- R34, R126: reset, from any state, even with a command in flight, leaves every element of the state at its reset value,
and the configuration and the constants, which read so in every state, as they were. -/
def Obligations.ResetState : Prop :=
  ∀ (s : State) (taken : Nat), s.busRead 0x00000 = some 0x4F545001 ∧
    s.busRead 0x00004 = some (BitVec.ofNat 32 s.cfg.nmax) ∧
    ∃ t, takeTurn (.reset taken) s = .next t ∧ t.cfg = s.cfg ∧ (∀ r i, t.vbit r i = false) ∧ (∀ r, t.vlen r = 0) ∧
    (∀ j, t.text j = 0) ∧ t.tlen = 0 ∧ t.arg = 0 ∧ t.cmd = 0 ∧ t.busy = false ∧ t.done = false ∧ t.err = 0 ∧
    t.errinfo = 0 ∧ t.busRead 0x00000 = some 0x4F545001 ∧ t.busRead 0x00004 = some (BitVec.ofNat 32 s.cfg.nmax)

/-- R34: the machine right after reset, for every configuration, and the constants it reads. -/
def Obligations.PowerOnState : Prop :=
  ∀ c : Config, c.Legal →
    (State.resetOf c).busRead 0x00000 = some 0x4F545001 ∧
    (State.resetOf c).busRead 0x00004 = some (BitVec.ofNat 32 c.nmax) ∧
    (State.resetOf c).busRead 0x0000C = some 0 ∧ (∀ r, (State.resetOf c).vlen r = 0) ∧
    (∀ r i, (State.resetOf c).vbit r i = false) ∧ (∀ j, (State.resetOf c).text j = 0) ∧
    (State.resetOf c).tlen = 0 ∧ (State.resetOf c).arg = 0 ∧ (State.resetOf c).cmd = 0 ∧
    (State.resetOf c).errinfo = 0

/-! ### Invariants -/

/-- The invariant holds right after reset, for every legal configuration and for the model's own. -/
def Obligations.ResetMeetsInvariant : Prop := (∀ c : Config, c.Legal → (State.resetOf c).Inv) ∧ State.reset.Inv

/-- R35: every step keeps the invariant: the configuration legal, the storage canonical and within its windows, the status
as R35 says, ERRINFO as R26 says. -/
def Obligations.StepKeepsInvariant : Prop := ∀ s t : State, s.Inv → step s = .next t → t.Inv

/-- R5, R28: no step changes the configuration, so CAP and ID read the same for ever. -/
def Obligations.StepKeepsConfiguration : Prop :=
  ∀ s t : State, step s = .next t →
    t.cfg = s.cfg ∧ t.busRead 0x00004 = s.busRead 0x00004 ∧ t.busRead 0x00000 = s.busRead 0x00000

/-- R87, R107, R138: a command in flight, whose draw the source has delivered if it is a KEYGEN within capacity, completes in
the engine's step, however many steps of the host come first and whatever they read. That those steps are the turns fixed
in `sched`, and that the engine moves when no more are, is the model's choice (DESIGN CHOICE, notes/assumptions/4.md,
5.md). -/
def Obligations.InFlightCompletes : Prop :=
  ∀ (s : State) (k : Nat), s.busy = true → s.sched = List.replicate k .host →
    (∀ d, decodeWord s.cmd = .ok (.keygen d) → s.arg.toNat ≤ s.cfg.nmax →
      (s.source.draw s.cfg s.arg.toNat).isSome = true) →
    ∀ u, runSteps k s = .next u →
      ∃ t, step u = .next t ∧ t.busy = false ∧ t.done = true ∧ t.cmd = s.cmd ∧ t.host = u.host

/-! ### The cipher sequences (spec/43_cipher_service.md) -/

/-- R97 (a), R98: the three commands of ENCRYPT, with ARG set from VLENp between the first two: B, the draw e, and their
exclusive-or, all of length 8n, for every draw the source delivers. -/
def Obligations.EncryptSuccess : Prop :=
  ∀ (s : State) (p k c : VReg) (e : List Bool) (src : EntropySource), s.cfg.Legal → p ≠ k → c ≠ k →
    s.tlen.toNat ≤ tmaxOf s.cfg → (∀ j, j < s.tlen.toNat → (s.text j).toNat ≤ 255) →
    s.source.draw s.cfg (8 * s.tlen.toNat) = some (e, src) →
    ∃ s1 s2 s3, runCommand (.encode p) s = .next s1 ∧ runCommand (.keygen k) { s1 with arg := s1.vlen p } = .next s2 ∧
      runCommand (.xor c p k) s2 = .next s3 ∧ s1.err = 0 ∧ s2.err = 0 ∧ s3.err = 0 ∧
      (s3.vlen k).toNat = 8 * s.tlen.toNat ∧ s3.vlen c = s3.vlen k ∧ s3.arg = s3.vlen k ∧ s3.seq k = e ∧
      s3.source = src ∧
      (∀ i, i < 8 * s.tlen.toNat →
        s1.vbit p i = (s.text (i / 8)).getLsbD (7 - i % 8) ∧ s3.vbit c i = (s1.vbit p i ^^ s3.vbit k i)) ∧
      (p ≠ c → s3.vlen p = s3.vlen k ∧ s3.seq p = s1.seq p)

/-- R99: the two commands of DECRYPT: CAPACITY, LENGTH, DECODING with T and TLEN unchanged, or the text of the
exclusive-or. -/
def Obligations.DecryptOutcome : Prop :=
  ∀ (s : State) (c k p : VReg), s.cfg.Legal →
    ∃ s1, runCommand (.xor p c k) s = .next s1 ∧
      (s.cfg.nmax < (s.vlen c).toNat ∨ s.cfg.nmax < (s.vlen k).toNat → s1.err = 5) ∧
      ((s.vlen c).toNat ≤ s.cfg.nmax → (s.vlen k).toNat ≤ s.cfg.nmax → s.vlen c ≠ s.vlen k → s1.err = 3) ∧
      ((s.vlen c).toNat ≤ s.cfg.nmax → s.vlen c = s.vlen k → s1.err = 0 ∧
        ∃ s2, runCommand (.decode p) s1 = .next s2 ∧
          ((s.vlen c).toNat % 8 ≠ 0 → s2.err = 2 ∧ s2.tlen = s.tlen ∧ (∀ j, s2.text j = s.text j) ∧
            s2.vlen p = s.vlen c ∧ ∀ i, i < (s.vlen c).toNat → s2.vbit p i = (s.vbit c i ^^ s.vbit k i)) ∧
          ((s.vlen c).toNat % 8 = 0 → s2.err = 0 ∧ s2.tlen.toNat = (s.vlen c).toNat / 8 ∧
            ∀ j, j < (s.vlen c).toNat / 8 → (s2.text j).toNat < 256 ∧
              ∀ m, m < 8 → (s2.text j).getLsbD (7 - m) = (s.vbit c (8 * j + m) ^^ s.vbit k (8 * j + m))))

/-- R100: ENCRYPT then DECRYPT restores the text, for every draw of the entropy source and any register q. -/
def Obligations.CipherRoundTrip : Prop :=
  ∀ (s : State) (p k c q : VReg), s.cfg.Legal → p ≠ k → c ≠ k → s.tlen.toNat ≤ tmaxOf s.cfg →
    (∀ j, j < s.tlen.toNat → (s.text j).toNat ≤ 255) →
    (s.source.draw s.cfg (8 * s.tlen.toNat)).isSome = true →
    ∃ s1 s2 s3 s4 s5, runCommand (.encode p) s = .next s1 ∧
      runCommand (.keygen k) { s1 with arg := s1.vlen p } = .next s2 ∧ runCommand (.xor c p k) s2 = .next s3 ∧
      runCommand (.xor q c k) s3 = .next s4 ∧ runCommand (.decode q) s4 = .next s5 ∧
      s1.err = 0 ∧ s2.err = 0 ∧ s3.err = 0 ∧ s4.err = 0 ∧ s5.err = 0 ∧ s5.tlen = s.tlen ∧
      ∀ j, j < s.tlen.toNat → s5.text j = s.text j
end

