-- ==== Sys2Proof/Laws/Bits.lean ====
section
/-! SUPPORT. The laws of the bit helpers: register numbers, the fields of a packed word, val8 and bits8
(spec/00_scope.md R11). -/

namespace Sys2Proof

@[simp] theorem VReg.ofBits_bits (r : VReg) : VReg.ofBits r.bits = r := by cases r <;> rfl

@[simp] theorem VReg.bits_ofBits (b : BitVec 2) : (VReg.ofBits b).bits = b := by revert b; decide

theorem VReg.bits_injective (r q : VReg) (h : r.bits = q.bits) : r = q := by
  rw [← VReg.ofBits_bits r, h, VReg.ofBits_bits]

/-- Bit i of a packed word, by the field it lies in (R56). -/
theorem getLsbD_packFields (op : BitVec 4) (vd va vb : BitVec 2) (rsv : BitVec 22) (i : Nat) :
    (packFields op vd va vb rsv).getLsbD i =
      if i < 4 then op.getLsbD i
      else if i < 6 then vd.getLsbD (i - 4)
      else if i < 8 then va.getLsbD (i - 6)
      else if i < 10 then vb.getLsbD (i - 8)
      else rsv.getLsbD (i - 10) := by
  have h1 (x : BitVec 28) (y : BitVec 4) : (x ++ y : BitVec 32).getLsbD i = if i < 4 then y.getLsbD i else x.getLsbD (i - 4) :=
    BitVec.getLsbD_append
  have h2 (x : BitVec 26) (y : BitVec 2) (k : Nat) : (x ++ y : BitVec 28).getLsbD k = if k < 2 then y.getLsbD k else x.getLsbD (k - 2) :=
    BitVec.getLsbD_append
  have h3 (x : BitVec 24) (y : BitVec 2) (k : Nat) : (x ++ y : BitVec 26).getLsbD k = if k < 2 then y.getLsbD k else x.getLsbD (k - 2) :=
    BitVec.getLsbD_append
  have h4 (x : BitVec 22) (y : BitVec 2) (k : Nat) : (x ++ y : BitVec 24).getLsbD k = if k < 2 then y.getLsbD k else x.getLsbD (k - 2) :=
    BitVec.getLsbD_append
  refine (h1 _ _).trans ?_
  split
  · rfl
  · rw [h2]
    split
    · rw [if_pos (by omega)]
    · rw [if_neg (by omega), h3]
      split
      · rw [if_pos (by omega)]; rfl
      · rw [if_neg (by omega), h4]
        split
        · rw [if_pos (by omega)]; rfl
        · rw [if_neg (by omega)]; rfl

section Fields
variable (op : BitVec 4) (vd va vb : BitVec 2) (rsv : BitVec 22)

@[simp] theorem fieldOp_packFields : fieldOp (packFields op vd va vb rsv) = op := by
  ext i hi
  simp [fieldOp, getLsbD_packFields, hi, ← BitVec.getLsbD_eq_getElem]

@[simp] theorem fieldVd_packFields : fieldVd (packFields op vd va vb rsv) = vd := by
  ext i hi
  simp [fieldVd, getLsbD_packFields, ← BitVec.getLsbD_eq_getElem, show 4 + i < 6 by omega]
  omega

@[simp] theorem fieldVa_packFields : fieldVa (packFields op vd va vb rsv) = va := by
  ext i hi
  simp [fieldVa, getLsbD_packFields, ← BitVec.getLsbD_eq_getElem, show 6 + i < 8 by omega, show ¬ 6 + i < 4 by omega]
  omega

@[simp] theorem fieldVb_packFields : fieldVb (packFields op vd va vb rsv) = vb := by
  ext i hi
  simp [fieldVb, getLsbD_packFields, ← BitVec.getLsbD_eq_getElem, show 8 + i < 10 by omega, show ¬ 8 + i < 4 by omega,
    show ¬ 8 + i < 6 by omega]
  omega

@[simp] theorem fieldRsv_packFields : fieldRsv (packFields op vd va vb rsv) = rsv := by
  ext i hi
  simp [fieldRsv, getLsbD_packFields, ← BitVec.getLsbD_eq_getElem, show ¬ 10 + i < 4 by omega, show ¬ 10 + i < 6 by omega,
    show ¬ 10 + i < 8 by omega]
  omega

end Fields

/-- A word is its fields. -/
theorem packFields_fields (w : Word) : packFields (fieldOp w) (fieldVd w) (fieldVa w) (fieldVb w) (fieldRsv w) = w := by
  refine BitVec.eq_of_getLsbD_eq fun i hi => ?_
  simp only [getLsbD_packFields, fieldOp, fieldVd, fieldVa, fieldVb, fieldRsv, BitVec.getLsbD_extractLsb']
  split
  · simp [*]
  · split
    · simp [show i - 4 < 2 by omega, show 4 + (i - 4) = i by omega]
    · split
      · simp [show i - 6 < 2 by omega, show 6 + (i - 6) = i by omega]
      · split
        · simp [show i - 8 < 2 by omega, show 8 + (i - 8) = i by omega]
        · simp [show i - 10 < 22 by omega, show 10 + (i - 10) = i by omega]

namespace Machine

/-- Element m of val8's argument is bit 7 - m of the byte (R11). -/
theorem getMsbD_val8 (g : Nat → Bool) (m : Nat) (hm : m < 8) : (val8 g).getMsbD m = g m := by
  rw [val8, BitVec.getMsbD_ofBoolListBE]
  rcases m with _ | _ | _ | _ | _ | _ | _ | _ | m <;> first | rfl | omega

theorem val8_congr (g g' : Nat → Bool) (h : ∀ m, m < 8 → g m = g' m) : val8 g = val8 g' :=
  BitVec.eq_of_getMsbD_eq fun m hm => by rw [getMsbD_val8 _ _ hm, getMsbD_val8 _ _ hm, h m hm]

/-- val8(bits8(c)) = c for a code point 0 to 255 (R11). -/
theorem val8_bits8 (c : Word) : val8 (bits8 c) = c.setWidth 8 := by
  refine BitVec.eq_of_getMsbD_eq fun m hm => ?_
  rw [getMsbD_val8 _ _ hm, bits8, BitVec.getMsbD_eq_getLsbD, BitVec.getLsbD_setWidth]
  simp [hm, show 7 - m < 8 by omega]

/-- bits8(val8(g)) = g (R11). -/
theorem bits8_val8 (g : Nat → Bool) (m : Nat) (hm : m < 8) : bits8 ((val8 g).setWidth 32) m = g m := by
  rw [← getMsbD_val8 g m hm, bits8, BitVec.getLsbD_setWidth, BitVec.getMsbD_eq_getLsbD]
  simp [hm, show 7 - m < 32 by omega]

theorem setWidth_setWidth_of_le_255 (c : Word) (h : c.toNat ≤ 255) : (c.setWidth 8).setWidth 32 = c := by
  apply BitVec.eq_of_toNat_eq
  rw [BitVec.toNat_setWidth, BitVec.toNat_setWidth, Nat.mod_eq_of_lt (show c.toNat < 2 ^ 8 by omega),
    Nat.mod_eq_of_lt c.isLt]

end Machine

end Sys2Proof
end

