-- ==== Sys2Proof/Laws/Memory.lean ====
section
/-! SUPPORT. The laws of sparse storage: what a read gives after a write, that every write keeps the canonical form, and
that two canonical memories that read alike are equal data. -/

namespace Sys2Proof.Machine

variable {w : Nat}

@[simp] theorem Memory.get_nil (a : Nat) : Memory.get ([] : List (Nat × BitVec w)) a = 0 := rfl

theorem Memory.get_cons (c : Nat × BitVec w) (m : List (Nat × BitVec w)) (a : Nat) :
    Memory.get (c :: m) a = if c.1 = a then c.2 else Memory.get m a := rfl

theorem Memory.get_append_of_absent (m m' : List (Nat × BitVec w)) (a : Nat) (h : ∀ c ∈ m, c.1 ≠ a) :
    Memory.get (m ++ m') a = Memory.get m' a := by
  induction m with
  | nil => rfl
  | cons c m ih =>
    rw [List.cons_append, Memory.get_cons, if_neg (h c (by simp))]
    exact ih fun d hd => h d (by simp [hd])

theorem Memory.get_of_absent (m : List (Nat × BitVec w)) (a : Nat) (h : ∀ c ∈ m, c.1 ≠ a) : Memory.get m a = 0 := by
  simpa using Memory.get_append_of_absent m [] a h

theorem Memory.get_append_of_present (m m' : List (Nat × BitVec w)) (a : Nat) (h : ∀ c ∈ m', c.1 ≠ a) :
    Memory.get (m ++ m') a = Memory.get m a := by
  induction m with
  | nil => simpa using Memory.get_of_absent m' a h
  | cons c m ih => rw [List.cons_append, Memory.get_cons, Memory.get_cons, ih]

theorem Memory.get_filter (m : List (Nat × BitVec w)) (p : Nat × BitVec w → Bool) (a : Nat)
    (h : ∀ v, p (a, v) = true) : Memory.get (m.filter p) a = Memory.get m a := by
  induction m with
  | nil => rfl
  | cons c m ih =>
    obtain ⟨k, v⟩ := c
    by_cases hk : k = a
    · subst hk; simp [h v, Memory.get_cons]
    · by_cases hp : p (k, v) = true <;> simp [hp, Memory.get_cons, hk, ih]

/-- A read of the block a `fill` writes. -/
theorem Memory.get_written (base n : Nat) (f : Nat → BitVec w) (k : Nat) (hk : k < n) :
    Memory.get (((List.range n).map (fun k => (base + k, f k))).filter (fun c => c.2 != 0)) (base + k) = f k := by
  induction n with
  | zero => omega
  | succ n ih =>
    rw [List.range_succ, List.map_append, List.filter_append]
    rcases Nat.lt_or_ge k n with h | h
    · rw [Memory.get_append_of_present, ih h]
      intro c hc
      obtain ⟨hc, -⟩ := List.mem_filter.1 hc
      obtain rfl : c = (base + n, f n) := by simpa using hc
      simp; omega
    · obtain rfl : k = n := by omega
      rw [Memory.get_append_of_absent]
      · by_cases hz : f k = 0
        · simp [hz]
        · have : (f k != 0) = true := by simpa using hz
          rw [List.map_cons, List.map_nil, List.filter_cons, if_pos this, Memory.get_cons, if_pos rfl]
      · intro c hc
        obtain ⟨hc, -⟩ := List.mem_filter.1 hc
        obtain ⟨j, hj, rfl⟩ := List.mem_map.1 hc
        have := List.mem_range.1 hj
        simp; omega

/-- What a `fill` stores can be read back, and it leaves every other address alone. -/
theorem Memory.get_fill (m : List (Nat × BitVec w)) (base n : Nat) (f : Nat → BitVec w) (a : Nat) :
    Memory.get (Memory.fill m base n f) a = if base ≤ a ∧ a < base + n then f (a - base) else Memory.get m a := by
  have hlow : ∀ c ∈ m.filter (fun c => decide (c.1 < base)), c.1 < base := by simp
  have hhigh : ∀ c ∈ m.filter (fun c => decide (base + n ≤ c.1)), base + n ≤ c.1 := by simp
  have hmid : ∀ c ∈ ((List.range n).map (fun k => (base + k, f k))).filter (fun c => c.2 != 0),
      base ≤ c.1 ∧ c.1 < base + n := by
    intro c hc
    obtain ⟨hc, -⟩ := List.mem_filter.1 hc
    obtain ⟨j, hj, rfl⟩ := List.mem_map.1 hc
    have := List.mem_range.1 hj
    simp; omega
  unfold Memory.fill
  split
  · rename_i h
    obtain ⟨k, rfl⟩ : ∃ k, a = base + k := ⟨a - base, by omega⟩
    rw [Memory.get_append_of_present _ _ _ (fun c hc => by have := hhigh c hc; omega),
      Memory.get_append_of_absent _ _ _ (fun c hc => by have := hlow c hc; omega),
      Memory.get_written _ _ _ _ (by omega), Nat.add_sub_cancel_left]
  · rename_i h
    rcases Nat.lt_or_ge a base with hb | hb
    · rw [Memory.get_append_of_present _ _ _ (fun c hc => by have := hhigh c hc; omega),
        Memory.get_append_of_present _ _ _ (fun c hc => by have := hmid c hc; omega),
        Memory.get_filter _ _ _ (fun _ => by simpa using hb)]
    · rw [List.append_assoc, Memory.get_append_of_absent _ _ _ (fun c hc => by have := hlow c hc; omega),
        Memory.get_append_of_absent _ _ _ (fun c hc => by have := hmid c hc; omega),
        Memory.get_filter _ _ _ (fun _ => by simp; omega)]

theorem Memory.get_fill_of_mem (m : List (Nat × BitVec w)) (base n : Nat) (f : Nat → BitVec w) (k : Nat) (h : k < n) :
    Memory.get (Memory.fill m base n f) (base + k) = f k := by
  rw [Memory.get_fill, if_pos (by omega), Nat.add_sub_cancel_left]

theorem Memory.get_fill_of_not_mem (m : List (Nat × BitVec w)) (base n : Nat) (f : Nat → BitVec w) (a : Nat)
    (h : ¬ (base ≤ a ∧ a < base + n)) : Memory.get (Memory.fill m base n f) a = Memory.get m a := by
  rw [Memory.get_fill, if_neg h]

/-- Every entry after a `fill` was there before, or lies in the block written. -/
theorem Memory.mem_fill (m : List (Nat × BitVec w)) (base n : Nat) (f : Nat → BitVec w) (c : Nat × BitVec w)
    (h : c ∈ Memory.fill m base n f) : c ∈ m ∨ (base ≤ c.1 ∧ c.1 < base + n) := by
  simp only [Memory.fill, List.mem_append, List.mem_filter, List.mem_map, List.mem_range] at h
  obtain (⟨h, -⟩ | ⟨⟨k, hk, rfl⟩, -⟩) | ⟨h, -⟩ := h
  · exact .inl h
  · right; simp; omega
  · exact .inl h

/-- A write keeps the canonical form. -/
theorem Memory.wf_fill (m : List (Nat × BitVec w)) (base n : Nat) (f : Nat → BitVec w) (h : Memory.wf m) :
    Memory.wf (Memory.fill m base n f) := by
  obtain ⟨hs, hz⟩ := h
  have hmid : (((List.range n).map (fun k => (base + k, f k))).filter (fun c => c.2 != 0)).Pairwise
      (fun x y => x.1 < y.1) := by
    refine List.Pairwise.filter _ (List.pairwise_map.2 ?_)
    exact List.pairwise_lt_range.imp fun hab => by simpa using hab
  refine ⟨?_, ?_⟩
  · unfold Memory.fill
    rw [List.pairwise_append, List.pairwise_append]
    refine ⟨⟨hs.filter _, hmid, ?_⟩, hs.filter _, ?_⟩
    · simp only [List.mem_filter, List.mem_map, List.mem_range]
      rintro x ⟨-, hx⟩ y ⟨⟨k, hk, rfl⟩, -⟩
      simp at hx ⊢; omega
    · simp only [List.mem_append, List.mem_filter, List.mem_map, List.mem_range]
      rintro x (⟨-, hx⟩ | ⟨⟨k, hk, rfl⟩, -⟩) y ⟨-, hy⟩ <;> simp at * <;> omega
  · intro c hc
    simp only [Memory.fill, List.mem_append, List.mem_filter] at hc
    obtain (⟨hc, -⟩ | ⟨-, hc⟩) | ⟨hc, -⟩ := hc
    · exact hz c hc
    · simpa using hc
    · exact hz c hc

theorem Memory.wf_nil : Memory.wf ([] : List (Nat × BitVec w)) := ⟨List.Pairwise.nil, by simp⟩

theorem Memory.wf_tail {c : Nat × BitVec w} {m : List (Nat × BitVec w)} (h : Memory.wf (c :: m)) : Memory.wf m :=
  ⟨(List.pairwise_cons.1 h.1).2, fun d hd => h.2 d (by simp [hd])⟩

/-- In a canonical memory nothing is listed below its first entry. -/
theorem Memory.get_below_head {c : Nat × BitVec w} {m : List (Nat × BitVec w)} (h : Memory.wf (c :: m)) (a : Nat)
    (ha : a < c.1) : Memory.get (c :: m) a = 0 := by
  refine Memory.get_of_absent _ _ fun d hd => ?_
  rcases List.mem_cons.1 hd with rfl | hd
  · omega
  · have := (List.pairwise_cons.1 h.1).1 d hd; omega

/-- Equal memories are equal data. -/
theorem Memory.ext {m m' : List (Nat × BitVec w)} (h : Memory.wf m) (h' : Memory.wf m')
    (hg : ∀ a, Memory.get m a = Memory.get m' a) : m = m' := by
  induction m generalizing m' with
  | nil =>
    cases m' with
    | nil => rfl
    | cons c m' => exact absurd (by simpa [Memory.get_cons] using (hg c.1).symm) (h'.2 c (by simp))
  | cons c m ih =>
    cases m' with
    | nil => exact absurd (by simpa [Memory.get_cons] using hg c.1) (h.2 c (by simp))
    | cons d m' =>
      have hcd : c.1 = d.1 := by
        rcases Nat.lt_trichotomy c.1 d.1 with hlt | heq | hgt
        · have := hg c.1
          rw [Memory.get_below_head h' _ hlt, Memory.get_cons, if_pos rfl] at this
          exact absurd this (h.2 c (by simp))
        · exact heq
        · have := hg d.1
          rw [Memory.get_below_head h _ hgt, Memory.get_cons, if_pos rfl] at this
          exact absurd this.symm (h'.2 d (by simp))
      have hv : c.2 = d.2 := by simpa [Memory.get_cons, hcd] using hg c.1
      have htail : ∀ a, Memory.get m a = Memory.get m' a := by
        intro a
        by_cases ha : c.1 = a
        · subst ha
          rw [Memory.get_of_absent m, Memory.get_of_absent m']
          · intro e he; have := (List.pairwise_cons.1 h'.1).1 e he; omega
          · intro e he; have := (List.pairwise_cons.1 h.1).1 e he; omega
        · simpa [Memory.get_cons, ha, hcd ▸ ha] using hg a
      rw [ih (Memory.wf_tail h) (Memory.wf_tail h') htail, Prod.ext hcd hv]

/-- A word write keeps the canonical form. -/
theorem Memory.wf_writeWord (m : List Host.Cell) (a : Nat) (v : Word) (h : Memory.wf m) :
    Memory.wf (Memory.writeWord m a v) := Memory.wf_fill m a 4 _ h

/-- The four bytes of a word, most significant first, are the word. -/
theorem byteOf_join (v : Word) : (byteOf v 0 ++ byteOf v 1 ++ byteOf v 2 ++ byteOf v 3 : BitVec 32) = v := by
  simp only [byteOf]
  ext i hi
  simp only [BitVec.getElem_append, BitVec.getElem_extractLsb']
  split
  · simp [BitVec.getLsbD_eq_getElem hi]
  · split
    · rw [← BitVec.getLsbD_eq_getElem hi]; congr 1; omega
    · split
      · rw [← BitVec.getLsbD_eq_getElem hi]; congr 1; omega
      · rw [← BitVec.getLsbD_eq_getElem hi]; congr 1; omega

/-- A word written is the word read. -/
theorem Memory.readWord_writeWord (m : List Host.Cell) (a : Nat) (v : Word) :
    Memory.readWord (Memory.writeWord m a v) a = v := by
  have h (k : Nat) (hk : k < 4) : Memory.get (Memory.writeWord m a v) (a + k) = byteOf v k :=
    Memory.get_fill_of_mem m a 4 _ k hk
  have h0 := h 0 (by omega)
  rw [Nat.add_zero] at h0
  rw [Memory.readWord, h0, h 1 (by omega), h 2 (by omega), h 3 (by omega), byteOf_join]

/-- A word write leaves every byte outside the word alone. -/
theorem Memory.get_writeWord_of_not_mem (m : List Host.Cell) (a b : Nat) (v : Word) (h : b < a ∨ a + 4 ≤ b) :
    Memory.get (Memory.writeWord m a v) b = Memory.get m b :=
  Memory.get_fill_of_not_mem m a 4 _ b (by omega)

/-- Words that agree byte by byte read alike. -/
theorem Memory.readWord_congr (m m' : List Host.Cell) (a : Nat)
    (h : ∀ b, a ≤ b → b < a + 4 → Memory.get m b = Memory.get m' b) : Memory.readWord m a = Memory.readWord m' a := by
  rw [Memory.readWord, Memory.readWord, h a (by omega) (by omega), h (a + 1) (by omega) (by omega),
    h (a + 2) (by omega) (by omega), h (a + 3) (by omega) (by omega)]

/-- A word whose four bytes are those of `v` reads as `v`. -/
theorem Memory.readWord_of_bytes (m : List Host.Cell) (a : Nat) (v : Word)
    (h : ∀ k, k < 4 → Memory.get m (a + k) = byteOf v k) : Memory.readWord m a = v := by
  have h0 := h 0 (by omega)
  rw [Nat.add_zero] at h0
  rw [Memory.readWord, h0, h 1 (by omega), h 2 (by omega), h 3 (by omega), byteOf_join]

/-- Bit 31 - 8m - t of the word at `a` is bit 7 - t of its byte m: the lowest-numbered byte is the most significant
(R46). -/
theorem Memory.getMsbD_readWord (m : List Host.Cell) (a i : Nat) (h : i < 32) :
    (Memory.readWord m a).getMsbD i = (Memory.get m (a + i / 8)).getMsbD (i % 8) := by
  have join (x : BitVec (8 + 8 + 8)) (y : Byte) : (x ++ y).getMsbD i = if i < 24 then x.getMsbD i else y.getMsbD (i - 24) := by
    simp only [BitVec.getMsbD_append]; rcases Nat.lt_or_ge i 24 with hi | hi <;> simp [hi]
  have join' (x : BitVec (8 + 8)) (y : Byte) : (x ++ y).getMsbD i = if i < 16 then x.getMsbD i else y.getMsbD (i - 16) := by
    simp only [BitVec.getMsbD_append]; rcases Nat.lt_or_ge i 16 with hi | hi <;> simp [hi]
  have join'' (x y : Byte) : (x ++ y).getMsbD i = if i < 8 then x.getMsbD i else y.getMsbD (i - 8) := by
    simp only [BitVec.getMsbD_append]; rcases Nat.lt_or_ge i 8 with hi | hi <;> simp [hi]
  refine (join _ _).trans ?_
  rw [join', join'']
  split
  · split
    · split
      · rw [show i / 8 = 0 by omega, show i % 8 = i by omega, Nat.add_zero]
      · rw [show i / 8 = 1 by omega, show i % 8 = i - 8 by omega]
    · rw [show i / 8 = 2 by omega, show i % 8 = i - 16 by omega]
  · rw [show i / 8 = 3 by omega, show i % 8 = i - 24 by omega]

end Sys2Proof.Machine
end

