-- ==== Sys2Proof/Laws/State.lean ====
section
/-! SUPPORT. One lemma per field per update of the state, so that no proof unfolds a record update. -/

namespace Sys2Proof.Machine

variable (s : State)

@[simp] theorem State.setVlen_cfg (r : VReg) (v : Word) : (s.setVlen r v).cfg = s.cfg := by cases r <;> rfl
@[simp] theorem State.setVlen_mem (r : VReg) (v : Word) : (s.setVlen r v).mem = s.mem := by cases r <;> rfl
@[simp] theorem State.setVlen_tlen (r : VReg) (v : Word) : (s.setVlen r v).tlen = s.tlen := by cases r <;> rfl
@[simp] theorem State.setVlen_arg (r : VReg) (v : Word) : (s.setVlen r v).arg = s.arg := by cases r <;> rfl
@[simp] theorem State.setVlen_cmd (r : VReg) (v : Word) : (s.setVlen r v).cmd = s.cmd := by cases r <;> rfl
@[simp] theorem State.setVlen_busy (r : VReg) (v : Word) : (s.setVlen r v).busy = s.busy := by cases r <;> rfl
@[simp] theorem State.setVlen_done (r : VReg) (v : Word) : (s.setVlen r v).done = s.done := by cases r <;> rfl
@[simp] theorem State.setVlen_err (r : VReg) (v : Word) : (s.setVlen r v).err = s.err := by cases r <;> rfl
@[simp] theorem State.setVlen_errinfo (r : VReg) (v : Word) : (s.setVlen r v).errinfo = s.errinfo := by cases r <;> rfl
@[simp] theorem State.setVlen_source (r : VReg) (v : Word) : (s.setVlen r v).source = s.source := by cases r <;> rfl
@[simp] theorem State.setVlen_host (r : VReg) (v : Word) : (s.setVlen r v).host = s.host := by cases r <;> rfl
@[simp] theorem State.setVlen_sched (r : VReg) (v : Word) : (s.setVlen r v).sched = s.sched := by cases r <;> rfl
@[simp] theorem State.setVlen_vlen (r : VReg) (v : Word) (q : VReg) : (s.setVlen r v).vlen q = if q = r then v else s.vlen q := by
  cases r <;> cases q <;> rfl
@[simp] theorem State.setVlen_vbit (r : VReg) (v : Word) (q : VReg) (i : Nat) : (s.setVlen r v).vbit q i = s.vbit q i := by simp [State.vbit]
@[simp] theorem State.setVlen_text (r : VReg) (v : Word) (j : Nat) : (s.setVlen r v).text j = s.text j := by simp [State.text]

@[simp] theorem State.issue_cfg (v : Word) : (s.issue v).cfg = s.cfg := rfl
@[simp] theorem State.issue_mem (v : Word) : (s.issue v).mem = s.mem := rfl
@[simp] theorem State.issue_tlen (v : Word) : (s.issue v).tlen = s.tlen := rfl
@[simp] theorem State.issue_arg (v : Word) : (s.issue v).arg = s.arg := rfl
@[simp] theorem State.issue_cmd (v : Word) : (s.issue v).cmd = v := rfl
@[simp] theorem State.issue_busy (v : Word) : (s.issue v).busy = true := rfl
@[simp] theorem State.issue_done (v : Word) : (s.issue v).done = false := rfl
@[simp] theorem State.issue_err (v : Word) : (s.issue v).err = 0 := rfl
@[simp] theorem State.issue_errinfo (v : Word) : (s.issue v).errinfo = 0 := rfl
@[simp] theorem State.issue_source (v : Word) : (s.issue v).source = s.source := rfl
@[simp] theorem State.issue_host (v : Word) : (s.issue v).host = s.host := rfl
@[simp] theorem State.issue_sched (v : Word) : (s.issue v).sched = s.sched := rfl
@[simp] theorem State.issue_vlen (v : Word) (q : VReg) : (s.issue v).vlen q = s.vlen q := by cases q <;> rfl
@[simp] theorem State.issue_vbit (v : Word) (q : VReg) (i : Nat) : (s.issue v).vbit q i = s.vbit q i := by simp [State.vbit]
@[simp] theorem State.issue_text (v : Word) (j : Nat) : (s.issue v).text j = s.text j := by simp [State.text]

@[simp] theorem State.complete_cfg : s.complete.cfg = s.cfg := rfl
@[simp] theorem State.complete_mem : s.complete.mem = s.mem := rfl
@[simp] theorem State.complete_tlen : s.complete.tlen = s.tlen := rfl
@[simp] theorem State.complete_arg : s.complete.arg = s.arg := rfl
@[simp] theorem State.complete_cmd : s.complete.cmd = s.cmd := rfl
@[simp] theorem State.complete_busy : s.complete.busy = false := rfl
@[simp] theorem State.complete_done : s.complete.done = true := rfl
@[simp] theorem State.complete_err : s.complete.err = ErrCode.code .none := rfl
@[simp] theorem State.complete_errinfo : s.complete.errinfo = 0 := rfl
@[simp] theorem State.complete_source : s.complete.source = s.source := rfl
@[simp] theorem State.complete_host : s.complete.host = s.host := rfl
@[simp] theorem State.complete_sched : s.complete.sched = s.sched := rfl
@[simp] theorem State.complete_vlen (q : VReg) : s.complete.vlen q = s.vlen q := by cases q <;> rfl
@[simp] theorem State.complete_vbit (q : VReg) (i : Nat) : s.complete.vbit q i = s.vbit q i := by simp [State.vbit]
@[simp] theorem State.complete_text (j : Nat) : s.complete.text j = s.text j := by simp [State.text]

@[simp] theorem State.fail_cfg (code : ErrCode) (info : Word) : (s.fail code info).cfg = s.cfg := rfl
@[simp] theorem State.fail_mem (code : ErrCode) (info : Word) : (s.fail code info).mem = s.mem := rfl
@[simp] theorem State.fail_tlen (code : ErrCode) (info : Word) : (s.fail code info).tlen = s.tlen := rfl
@[simp] theorem State.fail_arg (code : ErrCode) (info : Word) : (s.fail code info).arg = s.arg := rfl
@[simp] theorem State.fail_cmd (code : ErrCode) (info : Word) : (s.fail code info).cmd = s.cmd := rfl
@[simp] theorem State.fail_busy (code : ErrCode) (info : Word) : (s.fail code info).busy = false := rfl
@[simp] theorem State.fail_done (code : ErrCode) (info : Word) : (s.fail code info).done = true := rfl
@[simp] theorem State.fail_err (code : ErrCode) (info : Word) : (s.fail code info).err = code.code := rfl
@[simp] theorem State.fail_errinfo (code : ErrCode) (info : Word) : (s.fail code info).errinfo = info := rfl
@[simp] theorem State.fail_source (code : ErrCode) (info : Word) : (s.fail code info).source = s.source := rfl
@[simp] theorem State.fail_host (code : ErrCode) (info : Word) : (s.fail code info).host = s.host := rfl
@[simp] theorem State.fail_sched (code : ErrCode) (info : Word) : (s.fail code info).sched = s.sched := rfl
@[simp] theorem State.fail_vlen (code : ErrCode) (info : Word) (q : VReg) : (s.fail code info).vlen q = s.vlen q := by cases q <;> rfl
@[simp] theorem State.fail_vbit (code : ErrCode) (info : Word) (q : VReg) (i : Nat) : (s.fail code info).vbit q i = s.vbit q i := by simp [State.vbit]
@[simp] theorem State.fail_text (code : ErrCode) (info : Word) (j : Nat) : (s.fail code info).text j = s.text j := by simp [State.text]

@[simp] theorem State.writeSeq_cfg (d : VReg) (L : Nat) (g : Nat → Bool) : (s.writeSeq d L g).cfg = s.cfg := by cases d <;> rfl
@[simp] theorem State.writeSeq_mem (d : VReg) (L : Nat) (g : Nat → Bool) : (s.writeSeq d L g).mem = Memory.fill s.mem (vbase d) (s.cfg.nmax / 8) (seqByte L g) := by cases d <;> rfl
@[simp] theorem State.writeSeq_tlen (d : VReg) (L : Nat) (g : Nat → Bool) : (s.writeSeq d L g).tlen = s.tlen := by cases d <;> rfl
@[simp] theorem State.writeSeq_arg (d : VReg) (L : Nat) (g : Nat → Bool) : (s.writeSeq d L g).arg = s.arg := by cases d <;> rfl
@[simp] theorem State.writeSeq_cmd (d : VReg) (L : Nat) (g : Nat → Bool) : (s.writeSeq d L g).cmd = s.cmd := by cases d <;> rfl
@[simp] theorem State.writeSeq_busy (d : VReg) (L : Nat) (g : Nat → Bool) : (s.writeSeq d L g).busy = s.busy := by cases d <;> rfl
@[simp] theorem State.writeSeq_done (d : VReg) (L : Nat) (g : Nat → Bool) : (s.writeSeq d L g).done = s.done := by cases d <;> rfl
@[simp] theorem State.writeSeq_err (d : VReg) (L : Nat) (g : Nat → Bool) : (s.writeSeq d L g).err = s.err := by cases d <;> rfl
@[simp] theorem State.writeSeq_errinfo (d : VReg) (L : Nat) (g : Nat → Bool) : (s.writeSeq d L g).errinfo = s.errinfo := by cases d <;> rfl
@[simp] theorem State.writeSeq_source (d : VReg) (L : Nat) (g : Nat → Bool) : (s.writeSeq d L g).source = s.source := by cases d <;> rfl
@[simp] theorem State.writeSeq_host (d : VReg) (L : Nat) (g : Nat → Bool) : (s.writeSeq d L g).host = s.host := by cases d <;> rfl
@[simp] theorem State.writeSeq_sched (d : VReg) (L : Nat) (g : Nat → Bool) : (s.writeSeq d L g).sched = s.sched := by cases d <;> rfl
@[simp] theorem State.writeSeq_vlen (d : VReg) (L : Nat) (g : Nat → Bool) (q : VReg) :
    (s.writeSeq d L g).vlen q = if q = d then BitVec.ofNat 32 L else s.vlen q := by
  cases d <;> cases q <;> rfl

@[simp] theorem State.writeText_cfg (n : Nat) (f : Nat → Word) : (s.writeText n f).cfg = s.cfg := rfl
@[simp] theorem State.writeText_mem (n : Nat) (f : Nat → Word) : (s.writeText n f).mem = Memory.fill s.mem tbase (4 * tmaxOf s.cfg) (textByte n f) := rfl
@[simp] theorem State.writeText_tlen (n : Nat) (f : Nat → Word) : (s.writeText n f).tlen = BitVec.ofNat 32 n := rfl
@[simp] theorem State.writeText_arg (n : Nat) (f : Nat → Word) : (s.writeText n f).arg = s.arg := rfl
@[simp] theorem State.writeText_cmd (n : Nat) (f : Nat → Word) : (s.writeText n f).cmd = s.cmd := rfl
@[simp] theorem State.writeText_busy (n : Nat) (f : Nat → Word) : (s.writeText n f).busy = s.busy := rfl
@[simp] theorem State.writeText_done (n : Nat) (f : Nat → Word) : (s.writeText n f).done = s.done := rfl
@[simp] theorem State.writeText_err (n : Nat) (f : Nat → Word) : (s.writeText n f).err = s.err := rfl
@[simp] theorem State.writeText_errinfo (n : Nat) (f : Nat → Word) : (s.writeText n f).errinfo = s.errinfo := rfl
@[simp] theorem State.writeText_source (n : Nat) (f : Nat → Word) : (s.writeText n f).source = s.source := rfl
@[simp] theorem State.writeText_host (n : Nat) (f : Nat → Word) : (s.writeText n f).host = s.host := rfl
@[simp] theorem State.writeText_sched (n : Nat) (f : Nat → Word) : (s.writeText n f).sched = s.sched := rfl
@[simp] theorem State.writeText_vlen (n : Nat) (f : Nat → Word) (q : VReg) : (s.writeText n f).vlen q = s.vlen q := by cases q <;> rfl

@[simp] theorem State.setSource_cfg (src : EntropySource) : (s.setSource src).cfg = s.cfg := rfl
@[simp] theorem State.setSource_mem (src : EntropySource) : (s.setSource src).mem = s.mem := rfl
@[simp] theorem State.setSource_tlen (src : EntropySource) : (s.setSource src).tlen = s.tlen := rfl
@[simp] theorem State.setSource_arg (src : EntropySource) : (s.setSource src).arg = s.arg := rfl
@[simp] theorem State.setSource_cmd (src : EntropySource) : (s.setSource src).cmd = s.cmd := rfl
@[simp] theorem State.setSource_busy (src : EntropySource) : (s.setSource src).busy = s.busy := rfl
@[simp] theorem State.setSource_done (src : EntropySource) : (s.setSource src).done = s.done := rfl
@[simp] theorem State.setSource_err (src : EntropySource) : (s.setSource src).err = s.err := rfl
@[simp] theorem State.setSource_errinfo (src : EntropySource) : (s.setSource src).errinfo = s.errinfo := rfl
@[simp] theorem State.setSource_source (src : EntropySource) : (s.setSource src).source = src := rfl
@[simp] theorem State.setSource_host (src : EntropySource) : (s.setSource src).host = s.host := rfl
@[simp] theorem State.setSource_sched (src : EntropySource) : (s.setSource src).sched = s.sched := rfl
@[simp] theorem State.setSource_vlen (src : EntropySource) (q : VReg) : (s.setSource src).vlen q = s.vlen q := by cases q <;> rfl
@[simp] theorem State.setSource_vbit (src : EntropySource) (q : VReg) (i : Nat) : (s.setSource src).vbit q i = s.vbit q i := by simp [State.vbit]
@[simp] theorem State.setSource_text (src : EntropySource) (j : Nat) : (s.setSource src).text j = s.text j := by simp [State.text]

@[simp] theorem State.writeDraw_cfg (d : VReg) (e : List Bool) : (s.writeDraw d e).cfg = s.cfg := by cases d <;> rfl
@[simp] theorem State.writeDraw_mem (d : VReg) (e : List Bool) : (s.writeDraw d e).mem = (s.writeSeq d e.length (fun i => e.getD i false)).mem := by cases d <;> rfl
@[simp] theorem State.writeDraw_tlen (d : VReg) (e : List Bool) : (s.writeDraw d e).tlen = s.tlen := by cases d <;> rfl
@[simp] theorem State.writeDraw_arg (d : VReg) (e : List Bool) : (s.writeDraw d e).arg = s.arg := by cases d <;> rfl
@[simp] theorem State.writeDraw_cmd (d : VReg) (e : List Bool) : (s.writeDraw d e).cmd = s.cmd := by cases d <;> rfl
@[simp] theorem State.writeDraw_busy (d : VReg) (e : List Bool) : (s.writeDraw d e).busy = false := by cases d <;> rfl
@[simp] theorem State.writeDraw_done (d : VReg) (e : List Bool) : (s.writeDraw d e).done = true := by cases d <;> rfl
@[simp] theorem State.writeDraw_err (d : VReg) (e : List Bool) : (s.writeDraw d e).err = ErrCode.code .none := by cases d <;> rfl
@[simp] theorem State.writeDraw_errinfo (d : VReg) (e : List Bool) : (s.writeDraw d e).errinfo = 0 := by cases d <;> rfl
@[simp] theorem State.writeDraw_source (d : VReg) (e : List Bool) : (s.writeDraw d e).source = s.source := by cases d <;> rfl
@[simp] theorem State.writeDraw_host (d : VReg) (e : List Bool) : (s.writeDraw d e).host = s.host := by cases d <;> rfl
@[simp] theorem State.writeDraw_sched (d : VReg) (e : List Bool) : (s.writeDraw d e).sched = s.sched := by cases d <;> rfl
@[simp] theorem State.writeDraw_vlen (d : VReg) (e : List Bool) (q : VReg) :
    (s.writeDraw d e).vlen q = if q = d then BitVec.ofNat 32 e.length else s.vlen q := by
  cases d <;> cases q <;> rfl

@[simp] theorem State.takeReset_cfg (taken : Nat) : (s.takeReset taken).cfg = s.cfg := rfl
@[simp] theorem State.takeReset_mem (taken : Nat) : (s.takeReset taken).mem = [] := rfl
@[simp] theorem State.takeReset_tlen (taken : Nat) : (s.takeReset taken).tlen = 0 := rfl
@[simp] theorem State.takeReset_arg (taken : Nat) : (s.takeReset taken).arg = 0 := rfl
@[simp] theorem State.takeReset_cmd (taken : Nat) : (s.takeReset taken).cmd = 0 := rfl
@[simp] theorem State.takeReset_busy (taken : Nat) : (s.takeReset taken).busy = false := rfl
@[simp] theorem State.takeReset_done (taken : Nat) : (s.takeReset taken).done = false := rfl
@[simp] theorem State.takeReset_err (taken : Nat) : (s.takeReset taken).err = 0 := rfl
@[simp] theorem State.takeReset_errinfo (taken : Nat) : (s.takeReset taken).errinfo = 0 := rfl
@[simp] theorem State.takeReset_host (taken : Nat) : (s.takeReset taken).host = s.host := rfl
@[simp] theorem State.takeReset_sched (taken : Nat) : (s.takeReset taken).sched = s.sched := rfl
@[simp] theorem State.takeReset_vlen (taken : Nat) (q : VReg) : (s.takeReset taken).vlen q = 0 := by cases q <;> rfl

@[simp] theorem State.hostAdvance_cfg : (s.hostAdvance).cfg = s.cfg := rfl
@[simp] theorem State.hostAdvance_mem : (s.hostAdvance).mem = s.mem := rfl
@[simp] theorem State.hostAdvance_tlen : (s.hostAdvance).tlen = s.tlen := rfl
@[simp] theorem State.hostAdvance_arg : (s.hostAdvance).arg = s.arg := rfl
@[simp] theorem State.hostAdvance_cmd : (s.hostAdvance).cmd = s.cmd := rfl
@[simp] theorem State.hostAdvance_busy : (s.hostAdvance).busy = s.busy := rfl
@[simp] theorem State.hostAdvance_done : (s.hostAdvance).done = s.done := rfl
@[simp] theorem State.hostAdvance_err : (s.hostAdvance).err = s.err := rfl
@[simp] theorem State.hostAdvance_errinfo : (s.hostAdvance).errinfo = s.errinfo := rfl
@[simp] theorem State.hostAdvance_source : (s.hostAdvance).source = s.source := rfl
@[simp] theorem State.hostAdvance_sched : (s.hostAdvance).sched = s.sched := rfl
@[simp] theorem State.hostAdvance_vlen (q : VReg) : (s.hostAdvance).vlen q = s.vlen q := by cases q <;> rfl
@[simp] theorem State.hostAssign_cfg (x : Nat) (v : Word) : (s.hostAssign x v).cfg = s.cfg := rfl
@[simp] theorem State.hostAssign_mem (x : Nat) (v : Word) : (s.hostAssign x v).mem = s.mem := rfl
@[simp] theorem State.hostAssign_tlen (x : Nat) (v : Word) : (s.hostAssign x v).tlen = s.tlen := rfl
@[simp] theorem State.hostAssign_arg (x : Nat) (v : Word) : (s.hostAssign x v).arg = s.arg := rfl
@[simp] theorem State.hostAssign_cmd (x : Nat) (v : Word) : (s.hostAssign x v).cmd = s.cmd := rfl
@[simp] theorem State.hostAssign_busy (x : Nat) (v : Word) : (s.hostAssign x v).busy = s.busy := rfl
@[simp] theorem State.hostAssign_done (x : Nat) (v : Word) : (s.hostAssign x v).done = s.done := rfl
@[simp] theorem State.hostAssign_err (x : Nat) (v : Word) : (s.hostAssign x v).err = s.err := rfl
@[simp] theorem State.hostAssign_errinfo (x : Nat) (v : Word) : (s.hostAssign x v).errinfo = s.errinfo := rfl
@[simp] theorem State.hostAssign_source (x : Nat) (v : Word) : (s.hostAssign x v).source = s.source := rfl
@[simp] theorem State.hostAssign_sched (x : Nat) (v : Word) : (s.hostAssign x v).sched = s.sched := rfl
@[simp] theorem State.hostAssign_vlen (x : Nat) (v : Word) (q : VReg) : (s.hostAssign x v).vlen q = s.vlen q := by cases q <;> rfl
@[simp] theorem State.hostAdvance_pc : s.hostAdvance.host.pc = s.host.pc + 1 := rfl
@[simp] theorem State.hostAdvance_vars : s.hostAdvance.host.vars = s.host.vars := rfl
@[simp] theorem State.hostAssign_pc (x : Nat) (v : Word) : (s.hostAssign x v).host.pc = s.host.pc + 1 := rfl
@[simp] theorem State.hostAssign_vars (x : Nat) (v : Word) : (s.hostAssign x v).host.vars = Memory.fill s.host.vars x 1 (fun _ => v) := rfl

end Sys2Proof.Machine
end

