-- ==== Sys2Proof/Laws/Ops.lean ====
section
/-! SUPPORT. What the shared operations do to the storage: the elements of a vector register and the words of the text
buffer after each write, and that every operation keeps the storage in its canonical form and its range. -/

namespace Sys2Proof.Machine

/-! ### The layout of the storage -/

theorem vbase_bounds (r : VReg) : 0x10000 ≤ vbase r ∧ vbase r ≤ 0x40000 := by cases r <;> decide

theorem vbase_apart (r q : VReg) (h : r ≠ q) : vbase r + 0x10000 ≤ vbase q ∨ vbase q + 0x10000 ≤ vbase r := by
  cases r <;> cases q <;> first | exact absurd rfl h | decide

theorem inStorage_of_inVector (c : Config) (r : VReg) (a : Nat) (h : inVector c r a) : inStorage c a := by
  cases r
  · exact .inl h
  · exact .inr (.inl h)
  · exact .inr (.inr (.inl h))
  · exact .inr (.inr (.inr (.inl h)))

theorem inStorage_of_inText (c : Config) (a : Nat) (h : inText c a) : inStorage c a := .inr (.inr (.inr (.inr h)))

theorem eight_mul_tmaxOf {c : Config} (h : c.Legal) : 8 * tmaxOf c = c.nmax := by
  obtain ⟨h, -⟩ := h
  unfold tmaxOf; omega

/-! ### writeSeq -/

/-- The elements of the destination of a `writeSeq`: the sequence below its length, zeros up to NMAX - 1. -/
theorem State.vbit_writeSeq (s : State) (hc : s.cfg.Legal) (d : VReg) (L : Nat) (g : Nat → Bool) (i : Nat)
    (hi : i < s.cfg.nmax) : (s.writeSeq d L g).vbit d i = (decide (i < L) && g i) := by
  obtain ⟨h32, -⟩ := hc
  rw [State.vbit, State.writeSeq_mem, Memory.get_fill_of_mem _ _ _ _ _ (by omega), seqByte,
    getMsbD_val8 _ _ (by omega), show 8 * (i / 8) + i % 8 = i by omega]

/-- A `writeSeq` leaves every byte outside its destination alone. -/
theorem State.get_writeSeq (s : State) (d : VReg) (L : Nat) (g : Nat → Bool) (a : Nat) (h : ¬ inVector s.cfg d a) :
    Memory.get (s.writeSeq d L g).mem a = Memory.get s.mem a := by
  rw [State.writeSeq_mem, Memory.get_fill_of_not_mem _ _ _ _ _ h]

/-- A `writeSeq` leaves the elements of every other register alone. -/
theorem State.vbit_writeSeq_ne (s : State) (hc : s.cfg.Legal) (d : VReg) (L : Nat) (g : Nat → Bool) (r : VReg) (i : Nat)
    (hi : i < s.cfg.nmax) (h : r ≠ d) : (s.writeSeq d L g).vbit r i = s.vbit r i := by
  obtain ⟨h32, -, hmax, -⟩ := hc
  rw [State.vbit, State.get_writeSeq, State.vbit]
  have := vbase_apart r d h
  rintro ⟨h1, h2⟩; omega

/-- A `writeSeq` leaves the text buffer alone. -/
theorem State.text_writeSeq (s : State) (hc : s.cfg.Legal) (d : VReg) (L : Nat) (g : Nat → Bool) (j : Nat) :
    (s.writeSeq d L g).text j = s.text j := by
  obtain ⟨-, -, hmax, -⟩ := hc
  refine Memory.readWord_congr _ _ _ fun b hb _ => State.get_writeSeq _ _ _ _ _ ?_
  have := vbase_bounds d
  unfold tbase at hb
  rintro ⟨h1, h2⟩; omega

/-! ### The draw -/

/-- Everything EntropyDraw can answer: of a live source the next bits; of a stream, when it has the beats, R83's bits. -/
theorem EntropySource.draw_eq_some (c : Config) (L : Nat) (src : EntropySource) (e : List Bool) (src' : EntropySource) :
    src.draw c L = some (e, src') ↔
      (∃ pos, src = .live pos ∧ e = (List.range L).map (fun i => Config.freeBit (pos + i)) ∧ src' = .live (pos + L)) ∨
      (∃ beats, src = .stream beats ∧ beatsFor c L ≤ beats.length ∧ e = (List.range L).map (drawBit c beats) ∧
        src' = .stream (beats.drop (beatsFor c L))) := by
  cases src with
  | live pos => simp [EntropySource.draw, eq_comm]
  | stream beats =>
    by_cases h : beats.length < beatsFor c L
    · simp [EntropySource.draw, h]
    · simp [EntropySource.draw, h, Nat.le_of_not_lt h, eq_comm]

/-- A source fails to answer a draw only if it is a stream with too few beats (R87). -/
theorem EntropySource.draw_eq_none (c : Config) (L : Nat) (src : EntropySource) :
    src.draw c L = none ↔ ∃ beats, src = .stream beats ∧ beats.length < beatsFor c L := by
  cases src <;> simp [EntropySource.draw]

/-- A draw has the length asked for (R82). -/
theorem EntropySource.length_draw (c : Config) (L : Nat) (src : EntropySource) (e : List Bool) (src' : EntropySource)
    (h : src.draw c L = some (e, src')) : e.length = L := by
  obtain ⟨-, -, rfl, -⟩ | ⟨-, -, -, rfl, -⟩ := (src.draw_eq_some c L e src').1 h <;> simp

/-- The elements of the destination after a draw: its bits, zeros up to NMAX - 1 (R81). -/
theorem State.vbit_writeDraw (s : State) (hc : s.cfg.Legal) (d : VReg) (e : List Bool) (i : Nat) (hi : i < s.cfg.nmax) :
    (s.writeDraw d e).vbit d i = e.getD i false := by
  rw [State.vbit, State.writeDraw_mem, ← State.vbit, State.vbit_writeSeq _ hc _ _ _ _ hi]
  by_cases h : i < e.length <;> simp [h]

/-- A draw leaves the elements of every other register alone. -/
theorem State.vbit_writeDraw_ne (s : State) (hc : s.cfg.Legal) (d : VReg) (e : List Bool) (r : VReg) (i : Nat)
    (hi : i < s.cfg.nmax) (h : r ≠ d) : (s.writeDraw d e).vbit r i = s.vbit r i := by
  rw [State.vbit, State.writeDraw_mem, ← State.vbit, State.vbit_writeSeq_ne _ hc _ _ _ _ _ hi h]

/-- A draw leaves the text buffer alone. -/
theorem State.text_writeDraw (s : State) (hc : s.cfg.Legal) (d : VReg) (e : List Bool) (j : Nat) :
    (s.writeDraw d e).text j = s.text j := by
  rw [State.text, State.writeDraw_mem, ← State.text, State.text_writeSeq _ hc]

/-! ### writeText -/

/-- The words of the text buffer after a `writeText`. -/
theorem State.text_writeText (s : State) (n : Nat) (f : Nat → Word) (j : Nat) (hj : j < tmaxOf s.cfg) :
    (s.writeText n f).text j = if j < n then f j else 0 := by
  refine Memory.readWord_of_bytes _ _ _ fun k hk => ?_
  rw [State.writeText_mem, Nat.add_assoc, Memory.get_fill_of_mem _ _ _ _ _ (by omega), textByte,
    show (4 * j + k) / 4 = j by omega, show (4 * j + k) % 4 = k by omega]
  split
  · rfl
  · simp [byteOf]

/-- A `writeText` leaves every byte outside the text buffer alone. -/
theorem State.get_writeText (s : State) (n : Nat) (f : Nat → Word) (a : Nat) (h : ¬ inText s.cfg a) :
    Memory.get (s.writeText n f).mem a = Memory.get s.mem a := by
  rw [State.writeText_mem, Memory.get_fill_of_not_mem _ _ _ _ _ h]

/-- A `writeText` leaves the vector registers alone. -/
theorem State.vbit_writeText (s : State) (hc : s.cfg.Legal) (n : Nat) (f : Nat → Word) (r : VReg) (i : Nat)
    (hi : i < s.cfg.nmax) : (s.writeText n f).vbit r i = s.vbit r i := by
  obtain ⟨-, -, hmax, -⟩ := hc
  rw [State.vbit, State.get_writeText, State.vbit]
  have := vbase_bounds r
  rintro ⟨h1, h2⟩
  unfold tbase at h1; omega

/-! ### Sequences and text -/

theorem State.length_seq (s : State) (r : VReg) : (s.seq r).length = s.vlenNat r := by simp [State.seq]

theorem State.getElem_seq (s : State) (r : VReg) (i : Nat) (h : i < (s.seq r).length) : (s.seq r)[i] = s.vbit r i := by
  simp [State.seq]

/-- `firstBad` finds nothing exactly when every character is legal. -/
theorem State.firstBad_eq_none (s : State) : s.firstBad = none ↔ ∀ j, j < s.tlenNat → (s.text j).toNat ≤ 255 := by
  simp [State.firstBad]

/-- `firstBad` finds the lowest offending index. -/
theorem State.firstBad_eq_some (s : State) (j : Nat) :
    s.firstBad = some j ↔ j < s.tlenNat ∧ 255 < (s.text j).toNat ∧ ∀ k, k < j → (s.text k).toNat ≤ 255 := by
  simp only [State.firstBad, List.find?_range_eq_some, decide_eq_true_eq, List.mem_range, Bool.not_eq_true',
    decide_eq_false_iff_not, Nat.not_lt]
  tauto

/-! ### Every operation keeps the storage in order -/

theorem State.memOk_of_fill {s t : State} (h : s.memOk) (hcfg : t.cfg = s.cfg) {base n : Nat} {f : Nat → Byte}
    (hmem : t.mem = Memory.fill s.mem base n f) (hr : ∀ a, base ≤ a → a < base + n → inStorage s.cfg a) : t.memOk := by
  rw [State.memOk, hmem, hcfg]
  refine ⟨Memory.wf_fill _ _ _ _ h.1, fun c hc => ?_⟩
  rcases Memory.mem_fill _ _ _ _ _ hc with hc | ⟨h1, h2⟩
  · exact h.2 c hc
  · exact hr _ h1 h2

/-- A step that leaves the storage alone keeps it in order. -/
theorem State.memOk_of_same {s t : State} (h : s.memOk) (hcfg : t.cfg = s.cfg) (hmem : t.mem = s.mem) : t.memOk := by
  rw [State.memOk, hmem, hcfg]; exact h

theorem State.memOk_writeSeq (s : State) (h : s.memOk) (d : VReg) (L : Nat) (g : Nat → Bool) :
    (s.writeSeq d L g).memOk :=
  State.memOk_of_fill h (by simp) (by simp; rfl) fun _ h1 h2 => inStorage_of_inVector _ d _ ⟨h1, h2⟩

theorem State.memOk_writeText (s : State) (h : s.memOk) (n : Nat) (f : Nat → Word) : (s.writeText n f).memOk :=
  State.memOk_of_fill h (by simp) (by simp; rfl) fun _ h1 h2 => inStorage_of_inText _ _ ⟨h1, h2⟩

theorem State.memOk_writeDraw (s : State) (h : s.memOk) (d : VReg) (e : List Bool) : (s.writeDraw d e).memOk :=
  State.memOk_of_same (s.memOk_writeSeq h d e.length (fun i => e.getD i false)) (by simp) (by simp)

/-- A bus write to a storage word keeps the storage in order. -/
theorem State.memOk_writeWord {s t : State} (h : s.memOk) (hcfg : t.cfg = s.cfg) {a : Nat} {v : Word}
    (hmem : t.mem = Memory.writeWord s.mem a v) (hr : ∀ b, a ≤ b → b < a + 4 → inStorage s.cfg b) : t.memOk :=
  State.memOk_of_fill h hcfg hmem hr

end Sys2Proof.Machine
end

