-- ==== Sys2Proof/Laws/Bus.lean ====
section
/-! SUPPORT. The address map and what a bus access can be. -/

namespace Sys2Proof.Machine

/-- The registers of the block, by word index. -/
theorem registerAt_cases (k : Nat) (t : Target) (h : registerAt k = some t) :
    (k = 0 ∧ t = .id) ∨ (k = 1 ∧ t = .cap) ∨ (k = 2 ∧ t = .cmd) ∨ (k = 3 ∧ t = .status) ∨ (k = 4 ∧ t = .errinfo) ∨
    (k = 5 ∧ t = .arg) ∨ (k = 6 ∧ t = .tlen) ∨ (∃ r, k = 8 + VReg.index r ∧ t = .vlen r) := by
  match k with
  | 0 => exact .inl ⟨rfl, (Option.some.inj h).symm⟩
  | 1 => exact .inr (.inl ⟨rfl, (Option.some.inj h).symm⟩)
  | 2 => exact .inr (.inr (.inl ⟨rfl, (Option.some.inj h).symm⟩))
  | 3 => exact .inr (.inr (.inr (.inl ⟨rfl, (Option.some.inj h).symm⟩)))
  | 4 => exact .inr (.inr (.inr (.inr (.inl ⟨rfl, (Option.some.inj h).symm⟩))))
  | 5 => exact .inr (.inr (.inr (.inr (.inr (.inl ⟨rfl, (Option.some.inj h).symm⟩)))))
  | 6 => exact .inr (.inr (.inr (.inr (.inr (.inr (.inl ⟨rfl, (Option.some.inj h).symm⟩))))))
  | 7 => exact nomatch (show none = some t from h)
  | 8 => exact .inr (.inr (.inr (.inr (.inr (.inr (.inr ⟨.v0, rfl, (Option.some.inj h).symm⟩))))))
  | 9 => exact .inr (.inr (.inr (.inr (.inr (.inr (.inr ⟨.v1, rfl, (Option.some.inj h).symm⟩))))))
  | 10 => exact .inr (.inr (.inr (.inr (.inr (.inr (.inr ⟨.v2, rfl, (Option.some.inj h).symm⟩))))))
  | 11 => exact .inr (.inr (.inr (.inr (.inr (.inr (.inr ⟨.v3, rfl, (Option.some.inj h).symm⟩))))))
  | k + 12 => simp [registerAt] at h

theorem vwordAt_eq_some (c : Config) (r : VReg) (a : Nat) (t : Target) :
    vwordAt c r a = some t ↔ (a - vbase r) / 4 < c.nmax / 32 ∧ t = .vword r ((a - vbase r) / 4) := by
  unfold vwordAt
  split <;> rename_i h
  · simp [h, eq_comm]
  · simp [h]

/-- A storage word of a vector register is within its storage. -/
theorem vwordAt_vbase (c : Config) (r : VReg) (w : Nat) (h : w < c.nmax / 32) :
    vwordAt c r (vbase r + 4 * w) = some (.vword r w) := by
  rw [vwordAt_eq_some, show (vbase r + 4 * w - vbase r) / 4 = w by omega]
  exact ⟨h, rfl⟩

/-- The window of a vector register maps its storage words (R38). -/
theorem targetAt_vword (c : Config) (hc : c.Legal) (r : VReg) (w : Nat) (h : w < c.nmax / 32) :
    targetAt c (vbase r + 4 * w) = some (.vword r w) := by
  obtain ⟨-, -, hmax, -⟩ := hc
  have hv := vwordAt_vbase c r w h
  have hb : vbase r = 0x10000 * (VReg.index r + 1) := rfl
  unfold targetAt
  cases r <;> simp only [VReg.index] at hb
  · rw [if_neg (by omega), if_neg (by omega), if_pos (by omega)]; exact hv
  · rw [if_neg (by omega), if_neg (by omega), if_neg (by omega), if_pos (by omega)]; exact hv
  · rw [if_neg (by omega), if_neg (by omega), if_neg (by omega), if_neg (by omega), if_pos (by omega)]; exact hv
  · rw [if_neg (by omega), if_neg (by omega), if_neg (by omega), if_neg (by omega), if_neg (by omega), if_pos (by omega)]
    exact hv

/-- The text window maps the text words (R39). -/
theorem targetAt_tword (c : Config) (j : Nat) (h : j < tmaxOf c) : targetAt c (tbase + 4 * j) = some (.tword j) := by
  have hb : tbase = 0x80000 := rfl
  unfold targetAt
  rw [if_neg (by omega), if_neg (by omega), if_neg (by omega), if_neg (by omega), if_neg (by omega), if_neg (by omega),
    if_neg (by omega), show (tbase + 4 * j - tbase) / 4 = j by omega, if_pos h]

/-- What the address map says of a mapped offset (R42): it is aligned, and it is a register, a storage word or a text
word within capacity. -/
theorem targetAt_cases (c : Config) (a : Nat) (t : Target) (h : targetAt c a = some t) :
    a % 4 = 0 ∧ ((a < 0x10000 ∧ registerAt (a / 4) = some t) ∨
      (∃ r w, w < c.nmax / 32 ∧ a = vbase r + 4 * w ∧ t = .vword r w) ∨
      (∃ j, j < tmaxOf c ∧ a = tbase + 4 * j ∧ t = .tword j)) := by
  have v0 : vbase .v0 = 0x10000 := rfl
  have v1 : vbase .v1 = 0x20000 := rfl
  have v2 : vbase .v2 = 0x30000 := rfl
  have v3 : vbase .v3 = 0x40000 := rfl
  have tb : tbase = 0x80000 := rfl
  unfold targetAt at h
  split at h
  · exact nomatch h
  · rename_i hal
    refine ⟨by omega, ?_⟩
    split at h
    · rename_i ha; exact .inl ⟨ha, h⟩
    · right
      split at h
      · obtain ⟨hw, rfl⟩ := (vwordAt_eq_some _ _ _ _).1 h; exact .inl ⟨.v0, _, hw, by omega, rfl⟩
      · split at h
        · obtain ⟨hw, rfl⟩ := (vwordAt_eq_some _ _ _ _).1 h; exact .inl ⟨.v1, _, hw, by omega, rfl⟩
        · split at h
          · obtain ⟨hw, rfl⟩ := (vwordAt_eq_some _ _ _ _).1 h; exact .inl ⟨.v2, _, hw, by omega, rfl⟩
          · split at h
            · obtain ⟨hw, rfl⟩ := (vwordAt_eq_some _ _ _ _).1 h; exact .inl ⟨.v3, _, hw, by omega, rfl⟩
            · split at h
              · exact nomatch h
              · split at h
                · rename_i hj; injection h with h; exact .inr ⟨_, hj, by omega, h.symm⟩
                · exact nomatch h

/-- A bus read that answers: a mapped offset, its value, and, while a command is in flight, one of the five registers
R45 allows. -/
theorem State.busRead_eq_some (s : State) (a : Offset) (v : Word) :
    s.busRead a = some v ↔
      ∃ t, targetAt s.cfg a.toNat = some t ∧ (s.busy = true → t.readableBusy = true) ∧ s.readTarget t = v := by
  unfold State.busRead
  cases targetAt s.cfg a.toNat with
  | none => simp
  | some t => cases s.busy <;> cases ht : t.readableBusy <;> simp [ht]

/-- A bus write that answers: nothing in flight, a mapped offset, and the effect of its target. -/
theorem State.busWrite_eq_some (s t' : State) (a : Offset) (v : Word) :
    s.busWrite a v = some t' ↔
      s.busy = false ∧ ∃ t, targetAt s.cfg a.toNat = some t ∧ s.writeTarget t v = some t' := by
  unfold State.busWrite
  cases s.busy with
  | true => simp
  | false => cases targetAt s.cfg a.toNat <;> simp

/-- Everything a bus write can do (R41). -/
theorem State.busWrite_cases (s t : State) (a : Offset) (v : Word) (h : s.busWrite a v = some t) :
    s.busy = false ∧ (t = s.issue v ∨ t = { s with arg := v } ∨ t = { s with tlen := v } ∨ (∃ r, t = s.setVlen r v) ∨
      (∃ r w, w < s.cfg.nmax / 32 ∧ t = { s with mem := Memory.writeWord s.mem (vbase r + 4 * w) v }) ∨
      (∃ j, j < tmaxOf s.cfg ∧ t = { s with mem := Memory.writeWord s.mem (tbase + 4 * j) v })) := by
  obtain ⟨hb, q, hq, hw⟩ := (s.busWrite_eq_some t a v).1 h
  refine ⟨hb, ?_⟩
  obtain ⟨-, ⟨-, hr⟩ | ⟨r, w, hlt, -, rfl⟩ | ⟨j, hlt, -, rfl⟩⟩ := targetAt_cases _ _ _ hq
  · obtain ⟨-, rfl⟩ | ⟨-, rfl⟩ | ⟨-, rfl⟩ | ⟨-, rfl⟩ | ⟨-, rfl⟩ | ⟨-, rfl⟩ | ⟨-, rfl⟩ | ⟨r, -, rfl⟩ :=
      registerAt_cases _ _ hr
    · exact nomatch hw
    · exact nomatch hw
    · exact .inl (Option.some.inj hw).symm
    · exact nomatch hw
    · exact nomatch hw
    · exact .inr (.inl (Option.some.inj hw).symm)
    · exact .inr (.inr (.inl (Option.some.inj hw).symm))
    · exact .inr (.inr (.inr (.inl ⟨r, (Option.some.inj hw).symm⟩)))
  · exact .inr (.inr (.inr (.inr (.inl ⟨r, w, hlt, (Option.some.inj hw).symm⟩))))
  · exact .inr (.inr (.inr (.inr (.inr ⟨j, hlt, (Option.some.inj hw).symm⟩))))

/-- A bus write keeps the storage in order. -/
theorem State.memOk_busWrite (s t : State) (a : Offset) (v : Word) (hc : s.cfg.Legal) (hm : s.memOk)
    (h : s.busWrite a v = some t) : t.memOk := by
  obtain ⟨h32, -⟩ := hc
  obtain ⟨-, rfl | rfl | rfl | ⟨r, rfl⟩ | ⟨r, w, hw, rfl⟩ | ⟨j, hj, rfl⟩⟩ := s.busWrite_cases t a v h
  · exact State.memOk_of_same hm rfl rfl
  · exact State.memOk_of_same hm rfl rfl
  · exact State.memOk_of_same hm rfl rfl
  · exact State.memOk_of_same hm (by simp) (by simp)
  · exact State.memOk_writeWord hm rfl rfl fun b h1 h2 => inStorage_of_inVector _ r _ ⟨by omega, by omega⟩
  · exact State.memOk_writeWord hm rfl rfl fun b h1 h2 => inStorage_of_inText _ _ ⟨by omega, by omega⟩

end Sys2Proof.Machine
end

