-- ==== Sys2Proof/Laws/Commands.lean ====
section
/-! SUPPORT. Once for every command: what each completion can be. -/

namespace Sys2Proof.Machine

/-- A failed command: the outcome, and nothing else changed (R108). -/
theorem State.failedWith_fail (s : State) (code : ErrCode) (info : Word) : s.FailedWith (s.fail code info) code info where
  completed := ⟨rfl, rfl, rfl, rfl⟩
  outside := ⟨rfl, rfl, rfl, rfl, rfl⟩
  data := ⟨rfl, fun r => by simp, rfl⟩
  source := rfl

/-- Everything ENCODE can do. -/
theorem execEncode_cases (d : VReg) (s t : State) (h : execEncode d s = .next t) :
    (tmaxOf s.cfg < s.tlenNat ∧ t = s.fail .capacity 0) ∨
    (s.tlenNat ≤ tmaxOf s.cfg ∧ ∃ j, s.firstBad = some j ∧ t = s.fail .encoding (BitVec.ofNat 32 j)) ∨
    (s.tlenNat ≤ tmaxOf s.cfg ∧ s.firstBad = none ∧ t = (s.writeSeq d (8 * s.tlenNat) s.encodeBit).complete) := by
  unfold execEncode at h
  split at h
  · rename_i hn; injection h with h; exact .inl ⟨hn, h.symm⟩
  · rename_i hn
    split at h
    · rename_i j hj; injection h with h; exact .inr (.inl ⟨by omega, j, hj, h.symm⟩)
    · rename_i hj; injection h with h; exact .inr (.inr ⟨by omega, hj, h.symm⟩)

/-- Everything DECODE can do. -/
theorem execDecode_cases (a : VReg) (s t : State) (h : execDecode a s = .next t) :
    (s.cfg.nmax < s.vlenNat a ∧ t = s.fail .capacity 0) ∨
    (s.vlenNat a ≤ s.cfg.nmax ∧ s.vlenNat a % 8 ≠ 0 ∧ t = s.fail .decoding 0) ∨
    (s.vlenNat a ≤ s.cfg.nmax ∧ s.vlenNat a % 8 = 0 ∧
      t = (s.writeText (s.vlenNat a / 8) (s.decodeWordAt a)).complete) := by
  unfold execDecode at h
  split at h
  · rename_i hn; injection h with h; exact .inl ⟨hn, h.symm⟩
  · rename_i hn
    split at h
    · rename_i hj; injection h with h; exact .inr (.inl ⟨by omega, hj, h.symm⟩)
    · rename_i hj; injection h with h; exact .inr (.inr ⟨by omega, by omega, h.symm⟩)

/-- Everything KEYGEN can do: the second case is the wait for the entropy source (R87). -/
theorem execKeygen_cases (d : VReg) (s t : State) (h : execKeygen d s = .next t) :
    (s.cfg.nmax < s.argNat ∧ t = s.fail .capacity 0) ∨
    (s.argNat ≤ s.cfg.nmax ∧ s.source.draw s.cfg s.argNat = none ∧ t = s) ∨
    (s.argNat ≤ s.cfg.nmax ∧ ∃ e src, s.source.draw s.cfg s.argNat = some (e, src) ∧
      t = (s.writeDraw d e).setSource src) := by
  unfold execKeygen at h
  split at h
  · rename_i hn; injection h with h; exact .inl ⟨hn, h.symm⟩
  · rename_i hn
    split at h
    · rename_i hj; injection h with h; exact .inr (.inl ⟨by omega, hj, h.symm⟩)
    · rename_i e src hj; injection h with h; exact .inr (.inr ⟨by omega, e, src, hj, h.symm⟩)

/-- Everything XOR can do. -/
theorem execXor_cases (d a b : VReg) (s t : State) (h : execXor d a b s = .next t) :
    ((s.cfg.nmax < s.vlenNat a ∨ s.cfg.nmax < s.vlenNat b) ∧ t = s.fail .capacity 0) ∨
    (s.vlenNat a ≤ s.cfg.nmax ∧ s.vlenNat b ≤ s.cfg.nmax ∧ s.vlenNat a ≠ s.vlenNat b ∧ t = s.fail .length 0) ∨
    (s.vlenNat a ≤ s.cfg.nmax ∧ s.vlenNat a = s.vlenNat b ∧
      t = (s.writeSeq d (s.vlenNat a) (s.xorBit a b)).complete) := by
  unfold execXor at h
  split at h
  · rename_i hn; injection h with h; exact .inl ⟨hn, h.symm⟩
  · rename_i hn
    split at h
    · rename_i hj; injection h with h; exact .inr (.inl ⟨by omega, by omega, hj, h.symm⟩)
    · rename_i hj; injection h with h; exact .inr (.inr ⟨by omega, by omega, h.symm⟩)

/-- ENCODE of a text within capacity whose characters are all legal. -/
theorem execEncode_success (d : VReg) (s : State) (h : s.tlenNat ≤ tmaxOf s.cfg)
    (hb : ∀ j, j < s.tlenNat → (s.text j).toNat ≤ 255) :
    execEncode d s = .next (s.writeSeq d (8 * s.tlenNat) s.encodeBit).complete := by
  rw [execEncode, if_neg (by omega), s.firstBad_eq_none.2 hb]

/-- DECODE of a sequence within capacity whose length is a multiple of 8. -/
theorem execDecode_success (a : VReg) (s : State) (h : s.vlenNat a ≤ s.cfg.nmax) (h8 : s.vlenNat a % 8 = 0) :
    execDecode a s = .next (s.writeText (s.vlenNat a / 8) (s.decodeWordAt a)).complete := by
  rw [execDecode, if_neg (by omega), if_neg (by omega)]

/-- KEYGEN of a length within capacity, its draw delivered. -/
theorem execKeygen_success (d : VReg) (s : State) (h : s.argNat ≤ s.cfg.nmax) (e : List Bool) (src : EntropySource)
    (he : s.source.draw s.cfg s.argNat = some (e, src)) :
    execKeygen d s = .next ((s.writeDraw d e).setSource src) := by
  rw [execKeygen, if_neg (by omega), he]

/-- XOR of two sequences within capacity and of one length. -/
theorem execXor_success (d a b : VReg) (s : State) (h : s.vlenNat a ≤ s.cfg.nmax) (hl : s.vlenNat a = s.vlenNat b) :
    execXor d a b s = .next (s.writeSeq d (s.vlenNat a) (s.xorBit a b)).complete := by
  rw [execXor, if_neg (by omega), if_neg (by omega)]

/-- No command changes what lies outside its operands and the status. -/
theorem exec_outside (i : Instr) (s t : State) (h : exec i s = .next t) : s.SameOutside t := by
  cases i with
  | encode d =>
    obtain ⟨-, rfl⟩ | ⟨-, j, -, rfl⟩ | ⟨-, -, rfl⟩ := execEncode_cases d s t h <;>
      exact ⟨by simp, by simp, by simp, by simp, by simp⟩
  | decode a =>
    obtain ⟨-, rfl⟩ | ⟨-, -, rfl⟩ | ⟨-, -, rfl⟩ := execDecode_cases a s t h <;> exact ⟨rfl, rfl, rfl, rfl, rfl⟩
  | keygen d =>
    obtain ⟨-, rfl⟩ | ⟨-, -, rfl⟩ | ⟨-, e, src, -, rfl⟩ := execKeygen_cases d s t h <;>
      exact ⟨by simp, by simp, by simp, by simp, by simp⟩
  | xor d a b =>
    obtain ⟨-, rfl⟩ | ⟨-, -, -, rfl⟩ | ⟨-, -, rfl⟩ := execXor_cases d a b s t h <;>
      exact ⟨by simp, by simp, by simp, by simp, by simp⟩

/-- No command stops the machine: each answers a next state in every state. -/
theorem exec_answers (i : Instr) (s : State) : ∃ t, exec i s = .next t := by
  cases i <;> simp only [exec, execEncode, execDecode, execKeygen, execXor] <;> split <;>
    first | exact ⟨_, rfl⟩ | (split <;> exact ⟨_, rfl⟩)

end Sys2Proof.Machine
end

