-- ==== Sys2Proof/Laws/PerInstr.lean ====
section
/-! SUPPORT. What holds of every instruction as syntax, one lemma per constructor. -/

namespace Sys2Proof.Laws

/-- Family `EncodedRow`: an instruction is well formed, and its word lies in its own row of the opcode table
(spec/30_encoding.md R58). -/
def EncodedRow.Statement (i : Instr) : Prop := i.wellFormed = true ∧ encodeWord i &&& rowMask i = rowMatch i

theorem EncodedRow.encode (d : VReg) : EncodedRow.Statement (.encode d) := by
  cases d <;> exact ⟨by decide, by decide⟩

theorem EncodedRow.decode (a : VReg) : EncodedRow.Statement (.decode a) := by
  cases a <;> exact ⟨by decide, by decide⟩

theorem EncodedRow.keygen (d : VReg) : EncodedRow.Statement (.keygen d) := by
  cases d <;> exact ⟨by decide, by decide⟩

theorem EncodedRow.xor (d a b : VReg) : EncodedRow.Statement (.xor d a b) := by
  refine ⟨by simp [Instr.wellFormed, Fields.ofWord, encodeWord, Fields.wellFormed, Fields.unusedZero], ?_⟩
  cases d <;> cases a <;> cases b <;> decide

end Sys2Proof.Laws
end

