-- ==== Sys2Proof/Laws/Step.lean ====
section
/-! SUPPORT. Once for the host, the engine and the step: everything each can do. -/

namespace Sys2Proof.Machine

/-- A `GOTO` changes the host only. -/
theorem State.hostGoto_cases (s t : State) (l : Nat) (h : s.hostGoto l = .next t) :
    ∃ k, t = { s with host := { s.host with pc := k } } := by
  unfold State.hostGoto at h
  split at h
  · exact nomatch h
  · rename_i k _; injection h with h; exact ⟨k, h.symm⟩

/-- Everything a host step can do: nothing or one bus write to the block, and a change of the host that keeps its
variables in canonical form and ends the run only with nothing in flight. -/
theorem hostTurn_cases (s t : State) (h : hostTurn s = .next t) :
    ∃ s' ha, (s' = s ∨ ∃ a v, s.busWrite a v = some s') ∧ t = { s' with host := ha } ∧
      (Memory.wf s.host.vars → Memory.wf ha.vars) ∧
      (ha.status = .ended → s' = s ∧ (s.host.status = .ended ∨ s.busy = false)) := by
  unfold hostTurn at h
  split at h
  · rename_i hs; injection h with h; exact ⟨s, s.host, .inl rfl, h.symm, id, fun _ => ⟨rfl, .inl hs⟩⟩
  · injection h with h; exact ⟨s, s.host, .inl rfl, h.symm, id, fun hs => ⟨rfl, .inl hs⟩⟩
  · rename_i hrun
    have hne : s.host.status ≠ .ended := by rw [hrun]; exact nofun
    split at h
    · injection h with h; exact ⟨s, s.host, .inl rfl, h.symm, id, fun hs => absurd hs hne⟩
    · rename_i q _
      cases q with
      | wr off e =>
        simp only [State.hostStmt, State.hostWrite] at h
        split at h
        · exact nomatch h
        · split at h
          · exact nomatch h
          · rename_i s' hs'
            injection h with h
            have hhost : s'.host = s.host := by
              obtain ⟨-, rfl | rfl | rfl | ⟨r, rfl⟩ | ⟨r, w, -, rfl⟩ | ⟨j, -, rfl⟩⟩ := s.busWrite_cases _ _ _ hs' <;> simp
            exact ⟨s', _, .inr ⟨_, _, hs'⟩, h.symm, fun hv => by rw [hhost]; exact hv,
              fun hs => absurd (by rw [← hhost]; exact hs) hne⟩
      | rd off x =>
        simp only [State.hostStmt, State.hostRead] at h
        split at h
        · exact nomatch h
        · split at h
          · exact nomatch h
          · injection h with h
            exact ⟨s, _, .inl rfl, h.symm, fun hv => Memory.wf_fill _ _ _ _ hv, fun hs => absurd hs hne⟩
      | label l => injection h with h; exact ⟨s, _, .inl rfl, h.symm, id, fun hs => absurd hs hne⟩
      | goto l =>
        obtain ⟨k, hk⟩ := State.hostGoto_cases s t l h
        exact ⟨s, _, .inl rfl, hk, id, fun hs => absurd hs hne⟩
      | ifGoto c l =>
        simp only [State.hostStmt] at h
        split at h
        · obtain ⟨k, hk⟩ := State.hostGoto_cases s t l h
          exact ⟨s, _, .inl rfl, hk, id, fun hs => absurd hs hne⟩
        · injection h with h; exact ⟨s, _, .inl rfl, h.symm, id, fun hs => absurd hs hne⟩
      | halt =>
        injection h with h
        refine ⟨s, _, .inl rfl, h.symm, id, fun hs => ⟨rfl, .inr ?_⟩⟩
        cases hb : s.busy
        · rfl
        · simp [hb] at hs

/-- A host that has executed HALT does nothing. -/
theorem hostTurn_halted (s : State) (h : s.host.status ≠ .running) : hostTurn s = .next s := by
  unfold hostTurn
  split
  · rfl
  · rfl
  · rename_i hr; exact absurd hr h

/-- Everything the engine's turn can do. -/
theorem engineTurn_cases (s t : State) (h : engineTurn s = .next t) :
    (s.busy = false ∧ t = s) ∨
    (s.busy = true ∧ (∃ e, decodeWord s.cmd = .error e) ∧ t = s.fail .illegal 0) ∨
    (s.busy = true ∧ ∃ i, decodeWord s.cmd = .ok i ∧ exec i s = .next t) := by
  unfold engineTurn at h
  split at h
  · rename_i hb
    split at h
    · rename_i e he; injection h with h; exact .inr (.inl ⟨hb, ⟨e, he⟩, h.symm⟩)
    · rename_i i hi; exact .inr (.inr ⟨hb, i, hi, h⟩)
  · rename_i hb; injection h with h; exact .inl ⟨by simpa using hb, h.symm⟩

/-- The engine never stops the machine. -/
theorem engineTurn_answers (s : State) : ∃ t, engineTurn s = .next t := by
  unfold engineTurn
  split
  · split
    · exact ⟨_, rfl⟩
    · exact exec_answers _ _
  · exact ⟨_, rfl⟩

/-- A step of a state that is not final is one turn, taken in the state without it. -/
theorem step_eq_takeTurn (s : State) (h : s.final = false) : ∃ q ts, step s = takeTurn q { s with sched := ts } := by
  unfold step nextStep
  rw [if_neg (by simp [h])]
  split
  · exact ⟨_, s.sched, rfl⟩
  · exact ⟨_, _, rfl⟩

/-- In a final state the run has ended (R140). -/
theorem step_of_final (s : State) (h : s.final = true) : step s = .next s := by
  unfold step nextStep
  rw [if_pos h]

theorem runSteps_succ (n : Nat) (s t : State) (h : step s = .next t) : runSteps (n + 1) s = runSteps n t := by
  rw [runSteps, h]

/-- Everything one turn can do. -/
theorem takeTurn_cases (q : Turn) (s t : State) (h : takeTurn q s = .next t) :
    (q = .host ∧ hostTurn s = .next t) ∨ (q = .engine ∧ engineTurn s = .next t) ∨
    (∃ taken, q = .reset taken ∧ t = s.takeReset taken) := by
  cases q with
  | host => exact .inl ⟨rfl, h⟩
  | engine => exact .inr (.inl ⟨rfl, h⟩)
  | reset taken => injection h with h; exact .inr (.inr ⟨taken, rfl, h.symm⟩)

end Sys2Proof.Machine
end

