-- ==== Sys2Proof/Tests/Slice0.lean ====
section
/-! SUPPORT. Tests against the vectors of spec/95_test_vectors.md (at most two a command, each one step), the decoding of
words written out from spec/30_encoding.md, the well-formedness smoke test, and a witness for the hypotheses of every
statement of Certificates/Slice0/Obligations.lean. -/

namespace Sys2Proof.Tests

open Sys2Proof.Machine

/-! ### Small states -/

/-- The smallest block: NMAX = 32, so TMAX = 4. -/
def tiny : Config := { nmax := 32, entW := 8 }

/-- The state after reset with a text (T = cs / TLEN). -/
def withText (c : Config) (cs : List Word) : State := (State.resetOf c).writeText cs.length (fun j => cs.getD j 0)

/-- Vr = ws / L, in the notation of the vectors. -/
def loadV (s : State) (r : VReg) (ws : List Word) (L : Word) : State :=
  { s with mem := Memory.fill s.mem (vbase r) (4 * ws.length) (fun k => byteOf (ws.getD (k / 4) 0) (k % 4)) }.setVlen r L

/-- The state a step answers, if it answers one. -/
def nextOf (o : Host.Outcome State Fault Refusal) : Option State :=
  match o with
  | .next s => some s
  | .fault _ => none
  | .refused _ => none

/-- Storage word w of a vector register. -/
def vword (s : State) (r : VReg) (w : Nat) : Word := Memory.readWord s.mem (vbase r + 4 * w)

/-! ### Vectors: at most two a command -/

/-- E3: "Hello" crosses a word. -/
theorem test_encode_hello :
    (nextOf (exec (.encode .v0) (withText Config.vectors [0x48, 0x65, 0x6C, 0x6C, 0x6F]))).map
      (fun t => (vword t .v0 0, vword t .v0 1, t.vlen0, t.statusWord)) =
    some (0x48656C6C, 0x6F000000, 40, 0x02) := by decide +kernel

/-- E8: 256 fails at its index and leaves the destination alone. -/
theorem test_encode_error :
    (nextOf (exec (.encode .v0) (loadV (withText Config.vectors [0x41, 0x100]) .v0 [0x12345678] 32))).map
      (fun t => (vword t .v0 0, t.vlen0, t.statusWord, t.errinfo)) =
    some (0x12345678, 32, 0x12, 1) := by decide +kernel

/-- D4: bits beyond VLEN are not read. -/
theorem test_decode_beyond_length :
    (nextOf (exec (.decode .v0) (loadV State.reset .v0 [0x486900FF] 16))).map
      (fun t => (t.text 0, t.text 1, t.text 2, t.text 3, t.tlen, t.statusWord)) =
    some (0x48, 0x69, 0, 0, 2, 0x02) := by decide +kernel

/-- D2: a length that is no multiple of 8 leaves T alone. -/
theorem test_decode_misaligned :
    (nextOf (exec (.decode .v0) (loadV (withText Config.vectors [7, 7]) .v0 [0x50000000] 4))).map
      (fun t => (t.text 0, t.text 1, t.tlen, t.statusWord)) = some (7, 7, 2, 0x22) := by decide +kernel

/-- K4: two beats of 32 bits, the second in part, and the third left in the stream. -/
theorem test_keygen_two_beats :
    (nextOf (exec (.keygen .v0) { State.resetOf { nmax := 1024, entW := 32 } with
        arg := 40, source := .stream [0x01234567, 0x89ABCDEF, 0x11111111] })).map
      (fun t => (vword t .v0 0, vword t .v0 1, t.vlen0, t.source, t.statusWord)) =
    some (0x01234567, 0x89000000, 40, .stream [0x11111111], 0x02) := by decide +kernel

/-- K8: one-bit beats, the first the most significant. -/
theorem test_keygen_one_bit_beats :
    (nextOf (exec (.keygen .v0) { State.resetOf { nmax := 1024, entW := 1 } with
        arg := 4, source := .stream [1, 0, 1, 1] })).map
      (fun t => (vword t .v0 0, t.vlen0, t.statusWord)) = some (0xB0000000, 4, 0x02) := by decide +kernel

/-- X4: bits beyond VLEN are not read, and the result is zero there. -/
theorem test_xor_beyond_length :
    (nextOf (exec (.xor .v2 .v0 .v1) (loadV (loadV State.reset .v0 [0x5A5FFFFF] 12) .v1 [0xF0F00000] 12))).map
      (fun t => (vword t .v2 0, t.vlen2, t.statusWord)) = some (0xAAA00000, 12, 0x02) := by decide +kernel

/-- X6: the destination is a source. -/
theorem test_xor_in_place :
    (nextOf (exec (.xor .v0 .v0 .v1) (loadV (loadV State.reset .v0 [0x41000000] 8) .v1 [0x66000000] 8))).map
      (fun t => (vword t .v0 0, vword t .v1 0, t.vlen0)) = some (0x27000000, 0x66000000, 8) := by decide +kernel

/-! ### Bus, issue and reset -/

/-- B1 to B10: what each read after reset answers. -/
theorem test_bus_reads :
    [0x0, 0x4, 0xC, 0x2, 0x1C, 0x30, 0x1007C, 0x10080, 0x801FC, 0x80200, 0x50000].map State.reset.busRead =
    [some 0x4F545001, some 0x400, some 0, none, none, none, some 0, none, some 0, none, none] := by decide +kernel

/-- B14 to B17: after WR CMD, 0x1 and before the completion. -/
theorem test_bus_busy :
    (State.reset.busWrite 0x8 0x1).map
      (fun t => ([0xC, 0x8, 0x10, 0x0, 0x4].map t.busRead, [0x14, 0x18, 0x20, 0x10000, 0x80000].map t.busRead,
        t.busWrite 0x8 0x2)) =
    some ([some 0x1, some 0x1, some 0, some 0x4F545001, some 0x400], [none, none, none, none, none], none) := by
  decide +kernel

/-- B12, B13: the writes after reset that are bus errors. -/
theorem test_bus_write_errors :
    [0x0, 0x4, 0xC, 0x10, 0x15].map (fun a => State.reset.busWrite a 0) = [none, none, none, none, none] := by
  decide +kernel

/-- B19: reset aborts the command in flight. -/
theorem test_reset_in_flight :
    (nextOf (takeTurn (.reset 0) ((withText Config.vectors [0x41]).issue 0x1))).map
      (fun t => (t.statusWord, t.cmd, t.tlen, t.vlen0, t.mem.length)) = some (0, 0, 0, 0, 0) := by decide +kernel

/-- R41, R65: `WR TW(1), 0x3F` at the host, as in program P3. -/
theorem test_host_write :
    (nextOf (takeTurn .host (bootWith Config.vectors [.wr (.tword (.const 1)) (.const 0x3F)] (.live 0)))).map
      (fun t => (t.text 0, t.text 1, t.host.pc)) = some (0, 0x3F, 1) := by decide +kernel

/-- R68: program P1 is its two operand writes and this expansion. -/
theorem test_encrypt_expansion :
    pseudoEncrypt .v0 .v1 .v2 0 1 10 99 =
    [.wr (.lit 0x8) (.cmd (.encode .v0)), .label 10, .rd (.lit 0xC) 0, .ifGoto (condBusy 0) 10, .ifGoto (condErr 0) 99,
     .rd (.lit 0x20) 1, .wr (.lit 0x14) (.var 1),
     .wr (.lit 0x8) (.cmd (.keygen .v1)), .label 11, .rd (.lit 0xC) 0, .ifGoto (condBusy 0) 11, .ifGoto (condErr 0) 99,
     .wr (.lit 0x8) (.cmd (.xor .v2 .v0 .v1)), .label 12, .rd (.lit 0xC) 0, .ifGoto (condBusy 0) 12,
     .ifGoto (condErr 0) 99] := by decide

/-- R69: program P2's commands. -/
theorem test_decrypt_expansion :
    pseudoDecrypt .v2 .v1 .v3 0 10 99 =
    [.wr (.lit 0x8) (.cmd (.xor .v3 .v2 .v1)), .label 10, .rd (.lit 0xC) 0, .ifGoto (condBusy 0) 10,
     .ifGoto (condErr 0) 99,
     .wr (.lit 0x8) (.cmd (.decode .v3)), .label 11, .rd (.lit 0xC) 0, .ifGoto (condBusy 0) 11,
     .ifGoto (condErr 0) 99] := by decide

/-! ### Decoding, bit by bit from the patterns of R58 -/

/-- `0000000000000000000000 00 00 dd 0001`, dd = 11. -/
theorem test_decode_encode_word : decodeWord 0b00000000000000000000000000110001 = .ok (.encode .v3) := by decide

/-- `0000000000000000000000 00 aa 00 0010`, aa = 10. -/
theorem test_decode_decode_word : decodeWord 0b00000000000000000000000010000010 = .ok (.decode .v2) := by decide

/-- `0000000000000000000000 00 00 dd 0011`, dd = 01. -/
theorem test_decode_keygen_word : decodeWord 0b00000000000000000000000000010011 = .ok (.keygen .v1) := by decide

/-- `0000000000000000000000 bb aa dd 0100`, bb = 01, aa = 10, dd = 11 (W5). -/
theorem test_decode_xor_word : decodeWord 0b00000000000000000000000110110100 = .ok (.xor .v3 .v2 .v1) := by decide

/-- W9 to W16: illegal words, each with its reason. -/
theorem test_decode_illegal :
    [0x00000000, 0x00000005, 0x0000000F, 0x00000404, 0xFFFFFFFF, 0x000000C1, 0x00000012, 0x00000113, 0x000001C2].map
      (fun w => (decodeWord w).toOption) = List.replicate 9 none ∧
    decodeWord 0x00000005 = .error .reservedOpcode ∧ decodeWord 0x00000404 = .error .reservedBits ∧
    decodeWord 0x000000C1 = .error .unusedField := by decide

/-! ### Well-formedness: an ill-formed term for each check -/

theorem test_fields_ok : Fields.wellFormed { op := 4, vd := 2, va := 0, vb := 1, rsv := 0 } = true := by decide

theorem test_fields_reserved_opcode : Fields.wellFormed { op := 5, vd := 0, va := 0, vb := 0, rsv := 0 } = false := by
  decide

theorem test_fields_reserved_bits : Fields.wellFormed { op := 4, vd := 0, va := 0, vb := 0, rsv := 1 } = false := by
  decide

theorem test_fields_encode_unused : Fields.wellFormed { op := 1, vd := 0, va := 3, vb := 0, rsv := 0 } = false := by
  decide

theorem test_fields_decode_unused : Fields.wellFormed { op := 2, vd := 1, va := 0, vb := 0, rsv := 0 } = false := by
  decide

theorem test_program_undefined_label : hostProgramOk [.goto 1, .label 2] = false := by decide

theorem test_program_label_twice : hostProgramOk [.label 2, .goto 2, .label 2] = false := by decide

theorem test_program_ok : hostProgramOk (pseudoEncrypt .v0 .v1 .v2 0 1 10 99 ++ [.halt, .label 99, .halt]) = true := by
  decide

theorem test_encrypt_key_is_plaintext : encryptOk .v0 .v0 .v2 = false := by decide

theorem test_encrypt_key_is_ciphertext : encryptOk .v0 .v1 .v1 = false := by decide

/-! ### Witnesses: states and operands that meet the hypotheses of the statements -/

/-- A text that fills the tiny block, every character the largest legal one. -/
def fullText : State := withText tiny [255, 255, 255, 255]

/-- Two full sequences of the tiny block's capacity. -/
def fullVectors : State := loadV (loadV (State.resetOf tiny) .v0 [0xFFFFFFFF] 32) .v1 [0x12345678] 32

/-- A state with a KEYGEN's length and its beats. -/
def withBeats (n : Word) (beats : List Word) : State := { State.resetOf tiny with arg := n, source := .stream beats }

theorem witness_legal : Config.Legal tiny ∧ Config.Legal Config.vectors ∧ State.reset.cfg.Legal := by decide

/-- VectorWindowWrite, TextWindowWrite, BusReadValues: the last word of each window. -/
theorem witness_windows : State.reset.cfg.Legal ∧ State.reset.busy = false ∧ 31 < State.reset.cfg.nmax / 32 ∧
    127 < State.reset.cfg.nmax / 8 := by decide

/-- WritesIdempotent: a write to storage. -/
theorem witness_writes_idempotent :
    (0x10000 : Offset) ≠ 0x00008 ∧ ∃ t, State.reset.busWrite 0x10000 0xFFFFFFFF = some t :=
  ⟨by decide, Option.isSome_iff_exists.1 (by decide +kernel)⟩

/-- IssueCommand, LengthRegisterWrites: nothing in flight, and a command in flight. -/
theorem witness_busy : State.reset.busy = false ∧ (State.reset.issue 0x1).busy = true := by decide

/-- EncodeEffect, CapacityOutcome: TLEN = TMAX + 1. -/
theorem witness_encode_capacity : tmaxOf tiny < ({ State.resetOf tiny with tlen := 5 } : State).tlen.toNat := by decide

/-- EncodeEffect: the first illegal character at index 1. -/
theorem witness_encode_error :
    let s := withText tiny [255, 256, 300]
    s.tlen.toNat ≤ tmaxOf s.cfg ∧ 1 < s.tlen.toNat ∧ 255 < (s.text 1).toNat ∧ ∀ k, k < 1 → (s.text k).toNat ≤ 255 := by
  decide +kernel

/-- EncodeEffect, EncodePacksWords, TextRoundTrip, CodecLengthLaw: TLEN = TMAX, characters of 255. -/
theorem witness_encode_success :
    fullText.cfg.Legal ∧ fullText.tlen.toNat ≤ tmaxOf fullText.cfg ∧
    (∀ j, j < fullText.tlen.toNat → (fullText.text j).toNat ≤ 255) ∧ 0 < fullText.cfg.nmax / 32 ∧
    (nextOf (exec (.encode .v0) fullText)).map (fun t => t.err) = some 0 := by decide +kernel

/-- DecodeEffect, CapacityOutcome, XorEffect: VLEN0 = NMAX + 1. -/
theorem witness_vector_capacity : tiny.nmax < (({ State.resetOf tiny with vlen0 := 33 } : State).vlen .v0).toNat := by
  decide

/-- DecodeEffect: VLEN0 = NMAX - 1, no multiple of 8. -/
theorem witness_decode_misaligned :
    let s : State := { State.resetOf tiny with vlen0 := 31 }
    (s.vlen .v0).toNat ≤ s.cfg.nmax ∧ (s.vlen .v0).toNat % 8 ≠ 0 := by decide

/-- DecodeEffect, BitsRoundTrip, DecodeFrame, CodecLengthLaw: VLEN0 = NMAX. -/
theorem witness_decode_success :
    fullVectors.cfg.Legal ∧ (fullVectors.vlen .v0).toNat ≤ fullVectors.cfg.nmax ∧ (fullVectors.vlen .v0).toNat % 8 = 0 ∧
    (nextOf (exec (.decode .v0) fullVectors)).map (fun t => t.err) = some 0 := by decide +kernel

/-- KeygenEffect, CapacityOutcome: ARG = NMAX + 1. -/
theorem witness_keygen_capacity : tiny.nmax < (withBeats 33 []).arg.toNat := by decide

/-- KeygenEffect, KeygenAdmitsEveryDraw, KeygenTakesOneDraw: ARG = NMAX, the beats just enough; beats of 16 bits that make
the same draw; and a live source. -/
theorem witness_keygen_success :
    let s := withBeats 32 [1, 2, 3, 4]
    let so : EntropySource := .stream [0x0102, 0x0304]
    s.cfg.Legal ∧ s.arg.toNat ≤ s.cfg.nmax ∧ (s.arg.toNat + s.cfg.entW - 1) / s.cfg.entW ≤ [1, 2, 3, 4].length ∧
    (s.source.draw s.cfg s.arg.toNat).isSome = true ∧
    (so.draw { s.cfg with entW := 16 } s.arg.toNat).map Prod.fst = (s.source.draw s.cfg s.arg.toNat).map Prod.fst ∧
    (EntropySource.draw s.cfg s.arg.toNat (.live 7)).isSome = true ∧
    (List.replicate 32 true).length = s.arg.toNat := by decide +kernel

/-- KeygenWaits: one beat too few. -/
theorem witness_keygen_waits :
    let s := withBeats 32 [1, 2, 3]
    s.cfg.Legal ∧ s.arg.toNat ≤ s.cfg.nmax ∧ s.source = .stream [1, 2, 3] ∧
    [1, 2, 3].length * s.cfg.entW < s.arg.toNat := by decide

/-- KeygenSegmentsDisjoint: the beats of a key of 12 bits and of one of 20. -/
theorem witness_keygen_segments :
    let s := withBeats 12 [1, 2, 3, 4, 5]
    s.cfg.Legal ∧ s.source = .stream [1, 2, 3, 4, 5] ∧ s.arg.toNat ≤ s.cfg.nmax ∧ (20 : Word).toNat ≤ s.cfg.nmax ∧
    2 = (s.arg.toNat + s.cfg.entW - 1) / s.cfg.entW ∧ 3 = ((20 : Word).toNat + s.cfg.entW - 1) / s.cfg.entW ∧
    2 + 3 ≤ [1, 2, 3, 4, 5].length := by decide

/-- KeyResidueCleared. -/
theorem witness_residue : fullVectors.arg = 0 ∧ fullVectors.tlen = 0 := by decide +kernel

/-- XorEffect: unequal lengths within capacity. -/
theorem witness_xor_lengths :
    let s : State := { fullVectors with vlen1 := 31 }
    (s.vlen .v0).toNat ≤ s.cfg.nmax ∧ (s.vlen .v1).toNat ≤ s.cfg.nmax ∧ s.vlen .v0 ≠ s.vlen .v1 := by decide +kernel

/-- XorEffect, XorSelfInverse, XorLaws, DecryptOutcome: lengths NMAX. -/
theorem witness_xor_success :
    fullVectors.cfg.Legal ∧ (fullVectors.vlen .v0).toNat ≤ fullVectors.cfg.nmax ∧
    fullVectors.vlen .v0 = fullVectors.vlen .v1 ∧ VReg.v2 ≠ VReg.v1 := by decide +kernel

/-- DecryptOutcome: equal lengths that are no multiple of 8. -/
theorem witness_decrypt_decoding :
    let s : State := { fullVectors with vlen0 := 12, vlen1 := 12 }
    (s.vlen .v0).toNat ≤ s.cfg.nmax ∧ s.vlen .v0 = s.vlen .v1 ∧ (s.vlen .v0).toNat % 8 ≠ 0 := by decide +kernel

/-- VectorCommandFrame, DecodeFrame, EncodePacksWords: a command answers a next state. -/
theorem witness_command_answers : ∃ t, exec (.xor .v0 .v0 .v1) fullVectors = .next t := exec_answers _ _

/-- StorageBeyondLengthUnread: two states that differ in a bit above both lengths. -/
theorem witness_beyond_length :
    let s : State := { fullVectors with vlen0 := 8, vlen1 := 8 }
    let s' : State := { s with mem := Memory.fill s.mem (vbase .v0 + 1) 1 (fun _ => 0) }
    s'.cfg = s.cfg ∧ s'.vlen .v0 = s.vlen .v0 ∧ s'.vlen .v1 = s.vlen .v1 ∧
    (∀ i, i < (s.vlen .v0).toNat → s'.vbit .v0 i = s.vbit .v0 i) ∧
    (∀ i, i < (s.vlen .v1).toNat → s'.vbit .v1 i = s.vbit .v1 i) ∧
    s'.tlen = s.tlen ∧ (∀ j, j < s.tlen.toNat → s'.text j = s.text j) ∧ s'.mem ≠ s.mem := by decide +kernel

/-- FailureIsAllOrNothing, OutcomeCodes: a command in flight that fails. -/
theorem witness_failure :
    let s : State := { State.resetOf tiny with vlen0 := 4, busy := true }
    s.err = 0 ∧ s.busy = true ∧
    (nextOf (exec (.decode .v0) s)).map (fun t => (t.err, t.busy)) = some (2, false) := by decide +kernel

/-- IllegalOutcome: an illegal word in flight, the engine's turn. -/
theorem witness_illegal :
    let s : State := { State.reset.issue 0x404 with sched := [.engine] }
    s.busy = true ∧ decodeWord s.cmd = .error .reservedBits ∧ s.sched = [.engine] := by decide

/-- R72, R74, R81, R89: for each opcode, words with a reserved bit and with each field it does not use. -/
theorem witness_illegal_forms :
    decodeWord 0x00000041 = .error .unusedField ∧ decodeWord 0x00000101 = .error .unusedField ∧
    decodeWord 0x80000001 = .error .reservedBits ∧ decodeWord 0x00000012 = .error .unusedField ∧
    decodeWord 0x00000102 = .error .unusedField ∧ decodeWord 0x00000402 = .error .reservedBits ∧
    decodeWord 0x00000043 = .error .unusedField ∧ decodeWord 0x00000103 = .error .unusedField ∧
    decodeWord 0x00000403 = .error .reservedBits ∧ decodeWord 0x80000004 = .error .reservedBits := by decide

/-- StepRunsDecoded: a legal word in flight, in the engine's turn and by default. -/
theorem witness_step_runs :
    let s : State := State.reset.issue 0x124
    s.busy = true ∧ decodeWord s.cmd = .ok (.xor .v2 .v0 .v1) ∧ s.engineReady = true ∧ s.sched = [] ∧
    ({ s with sched := [.engine] } : State).sched = [.engine] := by decide

/-- BusyBlockUndisturbed, HostReadStep: a busy block and a host that reads STATUS. -/
theorem witness_host_read :
    let s := (bootWith tiny [.rd (.lit 0xC) 0] (.live 0)).issue 0x1
    s.busy = true ∧ s.host.status = .running ∧ s.host.prog[s.host.pc]? = some (.rd (.lit 0xC) 0) ∧
    s.busRead 0xC = some 1 ∧ (nextOf (takeTurn .host s)).isSome = true := by decide +kernel

/-- OnlyBusErrorsFault: a write to ID and a read of the unmapped hole. -/
theorem witness_bus_errors :
    let s := bootWith tiny [.wr (.lit 0x0) (.const 1)] (.live 0)
    let u := bootWith tiny [.rd (.lit 0x1C) 0] (.live 0)
    s.host.status = .running ∧ s.host.prog[s.host.pc]? = some (.wr (.lit 0x0) (.const 1)) ∧ s.busWrite 0x0 1 = none ∧
    u.host.prog[u.host.pc]? = some (.rd (.lit 0x1C) 0) ∧ u.busRead 0x1C = none := by decide +kernel

theorem witness_bus_fault :
    takeTurn .host (bootWith tiny [.rd (.lit 0x1C) 0] (.live 0)) = .fault (.busError 0x1C) := rfl

/-- HostWriteStep: the write that issues a command. -/
theorem witness_host_write :
    let s := bootWith tiny [.wr (.lit 0x8) (.cmd (.xor .v2 .v0 .v1))] (.live 0)
    s.host.status = .running ∧ s.host.prog[s.host.pc]? = some (.wr (.lit 0x8) (.cmd (.xor .v2 .v0 .v1))) ∧
    (HostOffset.lit 0x8).eval s.host.vars < 2 ^ 20 ∧
    s.busWrite 0x8 (HostValue.eval s.host.vars (.cmd (.xor .v2 .v0 .v1))) = some (s.issue 0x124) := by decide +kernel

/-- HostWindowAccess: the last word of the last window of each kind, read and written. -/
theorem witness_host_windows :
    let s := bootWith tiny [.rd (.vword .v3 (.const 0)) 0] (.live 0)
    let u := bootWith tiny [.wr (.tword (.const 3)) (.const 5)] (.live 0)
    s.cfg.Legal ∧ s.host.status = .running ∧ s.busy = false ∧
    (HostValue.eval s.host.vars (.const 0)).toNat < s.cfg.nmax / 32 ∧
    (HostValue.eval s.host.vars (.const 3)).toNat < s.cfg.nmax / 8 ∧
    s.host.prog[s.host.pc]? = some (.rd (.vword .v3 (.const 0)) 0) ∧
    u.host.prog[u.host.pc]? = some (.wr (.tword (.const 3)) (.const 5)) ∧
    (HostOffset.vword .v3 (.const 0)).eval s.host.vars < 2 ^ 20 ∧
    (nextOf (takeTurn .host u)).map (fun t => t.text 3) = some 5 := by decide +kernel

/-- HostJumps: a backward jump, and a condition that holds and one that does not. -/
theorem witness_host_jumps :
    let s := (bootWith tiny [.label 7, .goto 7] (.live 0)).hostAdvance
    let u := (bootWith tiny [.label 7, .ifGoto (condBusy 0) 7] (.live 0)).hostAdvance
    let u' := { u with host := { u.host with vars := [(0, 1)] } }
    s.host.status = .running ∧ s.host.prog[0]? = some (.label 7) ∧ (∀ n, n < 0 → s.host.prog[n]? ≠ some (.label 7)) ∧
    s.host.prog[s.host.pc]? = some (.goto 7) ∧ u.host.prog[u.host.pc]? = some (.ifGoto (condBusy 0) 7) ∧
    (condBusy 0).holds u.host.vars = false ∧ (condBusy 0).holds u'.host.vars = true := by decide +kernel

/-- HaltIsFinalWhenIdle, HaltInFlightNeverFinal: HALT with nothing in flight; and with a command in flight, which the next
step completes, the state still not final. -/
theorem witness_halt :
    let s := bootWith tiny [.halt] (.live 0)
    let b : State := { s.issue 0x1 with sched := [.host] }
    s.host.status = .running ∧ s.host.prog[s.host.pc]? = some .halt ∧ s.busy = false ∧ b.busy = true ∧
    (nextOf (takeTurn .host s)).map (fun t => t.final) = some true ∧
    (nextOf (takeTurn .host b)).map (fun t => t.host.status) = some .haltedInFlight ∧
    (nextOf (runSteps 2 b)).map (fun t => (t.busy, t.final)) = some (false, false) := by decide +kernel

/-- MisalignedAccess: each misalignment. -/
theorem witness_misaligned :
    (0x00001 : Offset).extractLsb' 0 2 ≠ 0 ∧ (0x10002 : Offset).extractLsb' 0 2 ≠ 0 ∧
    (0xFFFFF : Offset).extractLsb' 0 2 ≠ 0 := by decide

/-- CmdWriters, StepKeepsConfiguration: a turn and a step that answer. -/
theorem witness_turn_answers : takeTurn (.reset 3) State.reset = .next State.reset ∧ step State.reset = .next State.reset :=
  ⟨rfl, rfl⟩

/-- StepKeepsInvariant: a state that meets the invariant and steps. -/
theorem witness_invariant : State.reset.Inv ∧ step State.reset = .next State.reset :=
  ⟨⟨by decide, ⟨Memory.wf_nil, nofun⟩, by decide, by decide, Memory.wf_nil, nofun⟩, rfl⟩

/-- InFlightCompletes: a KEYGEN in flight whose draw is delivered, and a host that polls STATUS before the engine moves. -/
theorem witness_in_flight :
    let s : State := { (bootWith tiny (pseudoWait 0 1) (.stream [1, 2, 3, 4])).issue 0x3 with
      arg := 32, sched := [.host, .host] }
    s.busy = true ∧ s.sched = List.replicate 2 .host ∧ decodeWord s.cmd = .ok (.keygen .v0) ∧
    s.arg.toNat ≤ s.cfg.nmax ∧ (s.source.draw s.cfg s.arg.toNat).isSome = true ∧
    (nextOf (runSteps 2 s)).isSome = true := by decide +kernel

/-- EncryptSuccess, CipherRoundTrip: the text "Hi" with the beats of program P4. -/
theorem witness_cipher :
    let s : State := { withText tiny [0x48, 0x69] with source := .stream [0xA5, 0x3C] }
    s.cfg.Legal ∧ VReg.v0 ≠ VReg.v1 ∧ VReg.v2 ≠ VReg.v1 ∧ VReg.v0 ≠ VReg.v2 ∧ s.tlen.toNat ≤ tmaxOf s.cfg ∧
    (∀ j, j < s.tlen.toNat → (s.text j).toNat ≤ 255) ∧
    (s.source.draw s.cfg (8 * s.tlen.toNat)).isSome = true := by decide +kernel

end Sys2Proof.Tests
end

section
/-! PROOFS. The scope of the block (spec/00_scope.md): val8 and bits8 (R11), the configuration no step changes (R5, R27,
R28), and the one draw of a KEYGEN, which does not depend on ENT_W (R7, R82). -/

namespace Sys2Proof.Machine

/-! ### val8 and bits8 -/

/-- The first bit of a big-endian list has the weight of the list's remaining length. -/
theorem toNat_ofBoolListBE_cons (b : Bool) (bs : List Bool) :
    (BitVec.ofBoolListBE (b :: bs)).toNat = b.toNat * 2 ^ bs.length + (BitVec.ofBoolListBE bs).toNat := by
  rw [BitVec.ofBoolListBE, BitVec.toNat_cons', Nat.shiftLeft_eq]

theorem toNat_val8 (g : Nat → Bool) :
    (val8 g).toNat = ((List.range 8).map (fun k => (g k).toNat * 2 ^ (7 - k))).sum := by
  simp only [val8, toNat_ofBoolListBE_cons]
  simp [List.range_succ, BitVec.ofBoolListBE]

/-- Settles O7: the sum bit by bit along val8's list, the two inverses by the laws of val8 and bits8. -/
theorem val8Bits8Inverse : Obligations.Val8Bits8Inverse := by
  refine ⟨toNat_val8, fun c k _ => rfl, fun c hc => ?_, bits8_val8, by decide⟩
  rw [val8_bits8, BitVec.toNat_setWidth, Nat.mod_eq_of_lt (by omega)]

/-! ### The configuration -/

theorem State.busWrite_cfg (s t : State) (a : Offset) (v : Word) (h : s.busWrite a v = some t) : t.cfg = s.cfg := by
  obtain ⟨-, rfl | rfl | rfl | ⟨r, rfl⟩ | ⟨r, w, -, rfl⟩ | ⟨j, -, rfl⟩⟩ := s.busWrite_cases t a v h <;> simp

theorem hostTurn_cfg (s t : State) (h : hostTurn s = .next t) : t.cfg = s.cfg := by
  obtain ⟨s', ha, rfl | ⟨a, v, hw⟩, rfl, -, -⟩ := hostTurn_cases s t h
  · rfl
  · exact s.busWrite_cfg s' a v hw

theorem engineTurn_cfg (s t : State) (h : engineTurn s = .next t) : t.cfg = s.cfg := by
  obtain ⟨-, rfl⟩ | ⟨-, -, rfl⟩ | ⟨-, i, -, hi⟩ := engineTurn_cases s t h
  · rfl
  · rfl
  · exact (exec_outside i s t hi).cfg

theorem takeTurn_cfg (q : Turn) (s t : State) (h : takeTurn q s = .next t) : t.cfg = s.cfg := by
  obtain ⟨-, hh⟩ | ⟨-, he⟩ | ⟨taken, -, rfl⟩ := takeTurn_cases q s t h
  · exact hostTurn_cfg s t hh
  · exact engineTurn_cfg s t he
  · rfl

theorem step_cfg (s t : State) (h : step s = .next t) : t.cfg = s.cfg := by
  cases hf : s.final with
  | true =>
    rw [step_of_final s hf] at h
    injection h with h
    rw [h]
  | false =>
    obtain ⟨q, ts, hq⟩ := step_eq_takeTurn s hf
    exact takeTurn_cfg q { s with sched := ts } t (hq ▸ h)

/-- A read of ID answers the constant, in flight or not (R27, R45). -/
theorem State.busRead_id (s : State) : s.busRead 0x00000 = some idValue :=
  (s.busRead_eq_some _ _).2 ⟨.id, rfl, fun _ => rfl, rfl⟩

/-- A read of CAP answers NMAX, in flight or not (R28, R45). -/
theorem State.busRead_cap (s : State) : s.busRead 0x00004 = some (BitVec.ofNat 32 s.cfg.nmax) :=
  (s.busRead_eq_some _ _).2 ⟨.cap, rfl, fun _ => rfl, rfl⟩

/-- Settles O56: no turn of host, engine or reset changes the configuration, and CAP and ID read nothing else. -/
theorem stepKeepsConfiguration : Obligations.StepKeepsConfiguration := by
  intro s t h
  have hcfg := step_cfg s t h
  exact ⟨hcfg, by rw [t.busRead_cap, s.busRead_cap, hcfg], by rw [t.busRead_id, s.busRead_id]⟩

/-! ### The one draw of a KEYGEN -/

/-- What a draw writes depends neither on ENT_W nor on the source (R7). -/
theorem State.setSource_writeDraw_of_entW (s : State) (d : VReg) (e : List Bool) (w : Nat) (so src src' : EntropySource) :
    ({ s with cfg := { s.cfg with entW := w }, source := so }.writeDraw d e).setSource src' =
      { (s.writeDraw d e).setSource src with cfg := { s.cfg with entW := w }, source := src' } := by
  cases d <;> rfl

/-- A live source answers a draw of every length, under every configuration (R7, R82). -/
theorem EntropySource.draw_live (c : Config) (L pos : Nat) :
    EntropySource.draw c L (.live pos) =
      some ((List.range L).map (fun i => Config.freeBit (pos + i)), .live (pos + L)) := rfl

/-- Settles O28: both KEYGENs succeed with the draw given, and `writeDraw` reads neither ENT_W nor the source. -/
theorem keygenTakesOneDraw : Obligations.KeygenTakesOneDraw := by
  refine ⟨fun s d w so src src' e harg hdraw hdraw' => ?_, fun c c' L pos => ?_⟩
  · refine ⟨_, execKeygen_success d s harg e src hdraw, ?_⟩
    rw [← s.setSource_writeDraw_of_entW d e w so src src']
    exact execKeygen_success d { s with cfg := { s.cfg with entW := w }, source := so } harg e src' hdraw'
  · exact ⟨_, by simp, EntropySource.draw_live c L pos, EntropySource.draw_live c' L pos⟩

end Sys2Proof.Machine
end

section
/-! PROOFS. The architectural state (spec/10_state.md): the constant and length registers and STATUS on the bus (R17, R20,
R21, R27 to R29), what each agent may change (R22, R31), reset (R34), and the invariant of every step (R25, R26, R35). -/

namespace Sys2Proof.Machine

/-! ### The registers on the bus -/

/-- A write is a bus error where the target refuses it (R41), in flight or not. -/
theorem State.busWrite_eq_none_of_target (s : State) (a : Offset) (v : Word) (q : Target)
    (hq : targetAt s.cfg a.toNat = some q) (hw : s.writeTarget q v = none) : s.busWrite a v = none := by
  cases h : s.busWrite a v with
  | none => rfl
  | some t =>
    obtain ⟨-, q', hq', hw'⟩ := (s.busWrite_eq_some t a v).1 h
    obtain rfl : q = q' := Option.some.inj (hq.symm.trans hq')
    exact nomatch hw.symm.trans hw'

/-- Settles O8: ID is a constant target that refuses every write. -/
theorem idRegister : Obligations.IdRegister := fun s =>
  ⟨s.busRead_id, fun v => s.busWrite_eq_none_of_target _ v .id rfl rfl⟩

/-- Settles O9: a legal NMAX fits the word that CAP returns. -/
theorem capRegister : Obligations.CapRegister := by
  rintro s ⟨-, -, hmax, -⟩
  have hcap : (BitVec.ofNat 32 s.cfg.nmax).toNat = s.cfg.nmax := by
    rw [BitVec.toNat_ofNat, Nat.mod_eq_of_lt (by omega)]
  exact ⟨⟨_, s.busRead_cap, hcap, by rw [hcap, tmaxOf]⟩, fun v => s.busWrite_eq_none_of_target _ v .cap rfl rfl⟩

/-- The bits of the STATUS word (R29). -/
theorem State.getLsbD_statusWord (s : State) (i : Nat) :
    s.statusWord.getLsbD i =
      if i = 0 then s.busy else if i = 1 then s.done else if 4 ≤ i then s.err.getLsbD (i - 4) else false := by
  rcases i with _ | _ | _ | _ | i
  · simp [State.statusWord]
  · simp [State.statusWord]
  · simp [State.statusWord]
  · simp [State.statusWord]
  · by_cases hi : i < 4
    · simp [State.statusWord, show i + 4 < 32 by omega]
    · simp [State.statusWord, BitVec.getLsbD_of_ge s.err i (by omega)]

/-- A read of STATUS answers the STATUS word, in flight or not (R29, R45). -/
theorem State.busRead_status (s : State) : s.busRead 0x0000C = some s.statusWord :=
  (s.busRead_eq_some _ _).2 ⟨.status, rfl, fun _ => rfl, rfl⟩

/-- Settles O10: each field of the STATUS word, bit by bit. -/
theorem statusRegister : Obligations.StatusRegister := by
  refine fun s => ⟨⟨_, s.busRead_status, ?_, ?_, ?_, ?_, ?_⟩,
    fun v => s.busWrite_eq_none_of_target _ v .status rfl rfl⟩
  · exact s.getLsbD_statusWord 0
  · exact s.getLsbD_statusWord 1
  · ext i hi
    rw [BitVec.getElem_extractLsb', s.getLsbD_statusWord, if_neg (by omega), if_neg (by omega), if_neg (by omega)]
    exact (BitVec.getElem_zero hi).symm
  · ext i hi
    rw [BitVec.getElem_extractLsb', s.getLsbD_statusWord, if_neg (by omega), if_neg (by omega), if_pos (by omega),
      Nat.add_sub_cancel_left, BitVec.getLsbD_eq_getElem]
  · ext i hi
    rw [BitVec.getElem_extractLsb', s.getLsbD_statusWord, if_neg (by omega), if_neg (by omega), if_pos (by omega),
      BitVec.getLsbD_of_ge _ _ (by omega)]
    exact (BitVec.getElem_zero hi).symm

/-- The offset of VLENr maps to it (R30). -/
theorem targetAt_vlen (c : Config) (r : VReg) :
    targetAt c (BitVec.ofNat 20 (0x20 + 4 * VReg.index r)).toNat = some (.vlen r) := by
  cases r <;> rfl

/-- With nothing in flight a read answers what lies at the offset (R40). -/
theorem State.busRead_of_target (s : State) (a : Offset) (q : Target) (hb : s.busy = false)
    (hq : targetAt s.cfg a.toNat = some q) : s.busRead a = some (s.readTarget q) :=
  (s.busRead_eq_some _ _).2 ⟨q, hq, by simp [hb], rfl⟩

/-- Settles O15: each length register is a target of its own, whose write updates that field alone. -/
theorem lengthRegisterWrites : Obligations.LengthRegisterWrites := by
  intro s v hb
  refine ⟨(s.busWrite_eq_some _ _ _).2 ⟨hb, .arg, rfl, rfl⟩, State.busRead_of_target _ _ .arg hb rfl,
    (s.busWrite_eq_some _ _ _).2 ⟨hb, .tlen, rfl, rfl⟩, State.busRead_of_target _ _ .tlen hb rfl, fun r => ?_⟩
  have hread := (s.setVlen r v).busRead_of_target _ (.vlen r) (by simp [hb]) (targetAt_vlen _ r)
  refine ⟨s.setVlen r v, (s.busWrite_eq_some _ _ _).2 ⟨hb, .vlen r, targetAt_vlen _ r, rfl⟩, ?_, by simp,
    fun q hq => by simp [hq], ⟨by simp, by simp, by simp, by simp, by simp⟩, by simp⟩
  simpa [State.readTarget] using hread

/-! ### What a turn may change -/

/-- A bus write issues a command, or leaves CMD, STATUS and ERRINFO alone (R41, R106). -/
theorem State.busWrite_status (s t : State) (a : Offset) (v : Word) (h : s.busWrite a v = some t) :
    t = s.issue v ∨
      t.cmd = s.cmd ∧ t.busy = s.busy ∧ t.done = s.done ∧ t.err = s.err ∧ t.errinfo = s.errinfo := by
  obtain ⟨-, rfl | rfl | rfl | ⟨r, rfl⟩ | ⟨r, w, -, rfl⟩ | ⟨j, -, rfl⟩⟩ := s.busWrite_cases t a v h <;> simp

theorem engineTurn_cmd (s t : State) (h : engineTurn s = .next t) : t.cmd = s.cmd := by
  obtain ⟨-, rfl⟩ | ⟨-, -, rfl⟩ | ⟨-, i, -, hi⟩ := engineTurn_cases s t h
  · rfl
  · rfl
  · exact (exec_outside i s t hi).cmd

/-- Settles O51: of the host's bus writes only an issue reaches CMD, and no completion does. -/
theorem cmdWriters : Obligations.CmdWriters := by
  intro q s t h
  obtain ⟨rfl, hh⟩ | ⟨-, he⟩ | ⟨taken, rfl, rfl⟩ := takeTurn_cases q s t h
  · obtain ⟨s', ha, rfl | ⟨a, v, hw⟩, rfl, -, -⟩ := hostTurn_cases s t hh
    · exact .inl rfl
    · obtain rfl | ⟨hcmd, -⟩ := s.busWrite_status s' a v hw
      · exact .inr (.inr ⟨rfl, ((s.busWrite_eq_some _ _ _).1 hw).1, rfl, rfl⟩)
      · exact .inl hcmd
  · exact .inl (engineTurn_cmd s t he)
  · exact .inr (.inl ⟨⟨taken, rfl⟩, rfl⟩)

/-- Settles O23: a failing DECODE changes the status alone, a successful one writes only within the text buffer. -/
theorem decodeFrame : Obligations.DecodeFrame := by
  intro s t a h
  refine ⟨exec_outside _ s t h, ?_⟩
  obtain ⟨-, rfl⟩ | ⟨-, -, rfl⟩ | ⟨-, -, rfl⟩ := execDecode_cases a s t h
  · simp
  · simp
  · exact ⟨rfl, by simp, fun x hx => s.get_writeText _ _ x hx, rfl, rfl⟩

/-- Of the operands and the storage, two states differ at most in the vector register `d` and its length. -/
structure State.SameButVector (s t : State) (d : VReg) : Prop where
  tlen : t.tlen = s.tlen
  vlen : ∀ r, r ≠ d → t.vlen r = s.vlen r
  mem : ∀ a, ¬ inVector s.cfg d a → Memory.get t.mem a = Memory.get s.mem a

theorem State.sameButVector_fail (s : State) (d : VReg) (code : ErrCode) (info : Word) :
    s.SameButVector (s.fail code info) d :=
  ⟨rfl, fun r _ => s.fail_vlen code info r, fun _ _ => rfl⟩

theorem State.sameButVector_writeSeq (s : State) (d : VReg) (L : Nat) (g : Nat → Bool) :
    s.SameButVector (s.writeSeq d L g).complete d :=
  ⟨by simp, fun r hr => by simp [hr], fun x hx => s.get_writeSeq d L g x hx⟩

theorem State.sameButVector_writeDraw (s : State) (d : VReg) (e : List Bool) (src : EntropySource) :
    s.SameButVector ((s.writeDraw d e).setSource src) d :=
  ⟨by simp, fun r hr => by simp [hr], fun x hx => s.get_writeSeq d _ _ x hx⟩

theorem execEncode_frame (d : VReg) (s t : State) (h : execEncode d s = .next t) :
    s.SameButVector t d ∧ t.source = s.source ∧ t.busy = false ∧ t.done = true := by
  obtain ⟨-, rfl⟩ | ⟨-, j, -, rfl⟩ | ⟨-, -, rfl⟩ := execEncode_cases d s t h
  · exact ⟨s.sameButVector_fail d _ _, rfl, rfl, rfl⟩
  · exact ⟨s.sameButVector_fail d _ _, rfl, rfl, rfl⟩
  · exact ⟨s.sameButVector_writeSeq d _ _, by simp, rfl, rfl⟩

theorem execXor_frame (d a b : VReg) (s t : State) (h : execXor d a b s = .next t) :
    s.SameButVector t d ∧ t.source = s.source ∧ t.busy = false ∧ t.done = true := by
  obtain ⟨-, rfl⟩ | ⟨-, -, -, rfl⟩ | ⟨-, -, rfl⟩ := execXor_cases d a b s t h
  · exact ⟨s.sameButVector_fail d _ _, rfl, rfl, rfl⟩
  · exact ⟨s.sameButVector_fail d _ _, rfl, rfl, rfl⟩
  · exact ⟨s.sameButVector_writeSeq d _ _, by simp, rfl, rfl⟩

/-- A draw from a stream leaves the beats after those it takes (R83, R85). -/
theorem EntropySource.draw_stream_rest (c : Config) (L : Nat) (beats : List Word) (e : List Bool) (src : EntropySource)
    (h : EntropySource.draw c L (.stream beats) = some (e, src)) : src = .stream (beats.drop (beatsFor c L)) := by
  obtain ⟨pos, hs, -⟩ | ⟨_, hs, -, -, hsrc⟩ := (EntropySource.draw_eq_some _ _ _ _ _).1 h
  · exact nomatch hs
  · cases hs
    exact hsrc

/-- KEYGEN waits (R87), fails with the source as it was, or completes with the source its draw leaves (R82). -/
theorem execKeygen_frame (d : VReg) (s t : State) (h : execKeygen d s = .next t) :
    s.SameButVector t d ∧
      (t = s ∨ (t.busy = false ∧ t.done = true ∧
        (t.source = s.source ∨ ∃ e, s.source.draw s.cfg s.argNat = some (e, t.source)))) := by
  obtain ⟨-, rfl⟩ | ⟨-, -, rfl⟩ | ⟨-, e, src, he, rfl⟩ := execKeygen_cases d s t h
  · exact ⟨s.sameButVector_fail d _ _, .inr ⟨rfl, rfl, .inl rfl⟩⟩
  · exact ⟨⟨rfl, fun _ _ => rfl, fun _ _ => rfl⟩, .inl rfl⟩
  · exact ⟨s.sameButVector_writeDraw d e src, .inr ⟨by simp, by simp, .inr ⟨e, he⟩⟩⟩

/-- Settles O34: the frame of each of the three commands, and the beats that R83 takes off a stream. -/
theorem vectorCommandFrame : Obligations.VectorCommandFrame := by
  intro s t d i hi h
  refine ⟨exec_outside i s t h, ?_⟩
  obtain rfl | rfl | ⟨a, b, rfl⟩ := hi
  · obtain ⟨⟨htlen, hvlen, hmem⟩, hdone⟩ := execEncode_frame d s t h
    exact ⟨htlen, hvlen, hmem, fun _ => hdone, nofun⟩
  · obtain ⟨⟨htlen, hvlen, hmem⟩, hout⟩ := execKeygen_frame d s t h
    refine ⟨htlen, hvlen, hmem, fun hne => absurd rfl hne, fun _ => ?_⟩
    obtain hwait | ⟨hbusy, hdone, hsrc | ⟨e, he⟩⟩ := hout
    · exact .inl hwait
    · exact .inr ⟨hbusy, hdone, .inl hsrc⟩
    · refine .inr ⟨hbusy, hdone, .inr ⟨⟨e, he⟩, fun beats hbeats => ?_⟩⟩
      exact EntropySource.draw_stream_rest _ _ _ e _ (hbeats ▸ he)
  · obtain ⟨⟨htlen, hvlen, hmem⟩, hdone⟩ := execXor_frame d a b s t h
    exact ⟨htlen, hvlen, hmem, fun _ => hdone, nofun⟩

/-! ### Reset -/

/-- Storage in which nothing is listed holds zeros (R34). -/
theorem State.vbit_of_mem_nil (s : State) (h : s.mem = []) (r : VReg) (i : Nat) : s.vbit r i = false := by
  simp [State.vbit, h]

theorem State.text_of_mem_nil (s : State) (h : s.mem = []) (j : Nat) : s.text j = 0 := by
  simp [State.text, Memory.readWord, h]

/-- Settles O52: reset's turn clears every field, and ID and CAP read the constants in every state. -/
theorem resetState : Obligations.ResetState := by
  intro s taken
  refine ⟨s.busRead_id, s.busRead_cap, s.takeReset taken, rfl, rfl, State.vbit_of_mem_nil _ rfl, by simp,
    State.text_of_mem_nil _ rfl, rfl, rfl, rfl, rfl, rfl, rfl, rfl, State.busRead_id _, ?_⟩
  exact (s.takeReset taken).busRead_cap

/-- Settles O53: the reset state lists no storage and has every register 0. -/
theorem powerOnState : Obligations.PowerOnState := by
  intro c _
  have hstatus : (State.resetOf c).statusWord = 0 := by simp [State.statusWord, State.resetOf]
  exact ⟨State.busRead_id _, (State.resetOf c).busRead_cap, hstatus ▸ (State.resetOf c).busRead_status,
    fun r => by cases r <;> rfl, State.vbit_of_mem_nil _ rfl, State.text_of_mem_nil _ rfl, rfl, rfl, rfl, rfl⟩

/-- A block at its reset values meets the invariant, whatever the host has done. -/
theorem State.inv_of_reset_values (t : State) (hc : t.cfg.Legal) (hmem : t.mem = []) (hbusy : t.busy = false)
    (herr : t.err = 0) (hinfo : t.errinfo = 0) (hvars : Memory.wf t.host.vars) : t.Inv where
  legal := hc
  mem := by
    rw [State.memOk, hmem]
    exact ⟨Memory.wf_nil, nofun⟩
  status := by simp [State.statusOk, hbusy, herr]
  errinfo := by simp [State.errinfoOk, herr, hinfo]
  vars := hvars
  ended _ := hbusy

theorem State.inv_resetOf (c : Config) (hc : c.Legal) : (State.resetOf c).Inv :=
  State.inv_of_reset_values _ hc rfl rfl rfl rfl Memory.wf_nil

/-- Settles O54: the reset state lists no storage, has no command in flight and a host without variables. -/
theorem resetMeetsInvariant : Obligations.ResetMeetsInvariant :=
  ⟨State.inv_resetOf, State.inv_resetOf Config.vectors (by decide)⟩

/-! ### The invariant -/

/-- The outcome codes are 0 to 5 (R25). -/
theorem ErrCode.toNat_code_le (code : ErrCode) : code.code.toNat ≤ 5 := by cases code <;> decide

/-- Only ENCODING has the code 1 (R25). -/
theorem ErrCode.code_eq_one_iff (code : ErrCode) : code.code = 1 ↔ code = .encoding := by cases code <;> decide

/-- ERRINFO of an outcome: an index below TMAX for ENCODING, 0 for every other (R26). -/
def InfoOk (c : Config) (code : ErrCode) (info : Word) : Prop :=
  (code = .encoding → info.toNat < tmaxOf c) ∧ (code ≠ .encoding → info = 0)

/-- Every outcome but ENCODING comes with ERRINFO 0 (R26). -/
theorem infoOk_zero (c : Config) (code : ErrCode) (h : code ≠ .encoding) : InfoOk c code 0 :=
  ⟨fun he => absurd he h, fun _ => rfl⟩

/-- The index ENCODE reports is below TMAX, so that ERRINFO holds it unchanged (R26, R72). -/
theorem State.infoOk_firstBad (s : State) (hn : s.tlenNat ≤ tmaxOf s.cfg) (j : Nat) (hj : s.firstBad = some j) :
    InfoOk s.cfg .encoding (BitVec.ofNat 32 j) := by
  obtain ⟨hlt, -⟩ := (s.firstBad_eq_some j).1 hj
  have h32 : s.tlenNat < 2 ^ 32 := s.tlen.isLt
  refine ⟨fun _ => ?_, fun h => absurd rfl h⟩
  rw [BitVec.toNat_ofNat, Nat.mod_eq_of_lt (by omega)]
  omega

/-- A state with the block of an invariant state but for a completed outcome meets the invariant (R35, R107). -/
theorem State.Inv.of_completed {s t : State} (h : s.Inv) (hcfg : t.cfg = s.cfg) (hhost : t.host = s.host)
    (hmem : t.memOk) {code : ErrCode} {info : Word} (hc : t.Completed code info) (hinfo : InfoOk s.cfg code info) :
    t.Inv := by
  obtain ⟨hbusy, hdone, herr, herrinfo⟩ := hc
  obtain ⟨henc, hzero⟩ := hinfo
  exact
    { legal := hcfg ▸ h.legal
      mem := hmem
      status := ⟨by simp [hbusy], herr ▸ code.toNat_code_le, fun _ => ⟨hdone, hbusy⟩⟩
      errinfo := by
        rw [State.errinfoOk, herr, herrinfo, hcfg, Ne, code.code_eq_one_iff]
        exact ⟨hzero, henc⟩
      vars := hhost ▸ h.vars
      ended := fun _ => hbusy }

theorem State.Inv.fail {s : State} (h : s.Inv) (code : ErrCode) (info : Word) (hinfo : InfoOk s.cfg code info) :
    (s.fail code info).Inv :=
  h.of_completed rfl rfl (State.memOk_of_same h.mem rfl rfl) ⟨rfl, rfl, rfl, rfl⟩ hinfo

/-- Every completion keeps the invariant (R107). -/
theorem State.Inv.exec {s t : State} (hs : s.Inv) (i : Instr) (h : exec i s = .next t) : t.Inv := by
  have ⟨hcfg, _, _, hhost, _⟩ := exec_outside i s t h
  have hnone : InfoOk s.cfg .none 0 := infoOk_zero _ _ nofun
  cases i with
  | encode d =>
    obtain ⟨-, rfl⟩ | ⟨hn, j, hj, rfl⟩ | ⟨-, -, rfl⟩ := execEncode_cases d s t h
    · exact hs.fail _ _ (infoOk_zero _ _ nofun)
    · exact hs.fail _ _ (s.infoOk_firstBad hn j hj)
    · exact hs.of_completed hcfg hhost (s.memOk_writeSeq hs.mem d _ _) ⟨rfl, rfl, rfl, rfl⟩ hnone
  | decode a =>
    obtain ⟨-, rfl⟩ | ⟨-, -, rfl⟩ | ⟨-, -, rfl⟩ := execDecode_cases a s t h
    · exact hs.fail _ _ (infoOk_zero _ _ nofun)
    · exact hs.fail _ _ (infoOk_zero _ _ nofun)
    · exact hs.of_completed hcfg hhost (s.memOk_writeText hs.mem _ _) ⟨rfl, rfl, rfl, rfl⟩ hnone
  | keygen d =>
    obtain ⟨-, rfl⟩ | ⟨-, -, rfl⟩ | ⟨-, e, src, -, rfl⟩ := execKeygen_cases d s t h
    · exact hs.fail _ _ (infoOk_zero _ _ nofun)
    · exact hs
    · exact hs.of_completed hcfg hhost (s.memOk_writeDraw hs.mem d e) ⟨rfl, rfl, rfl, rfl⟩ hnone
  | xor d a b =>
    obtain ⟨-, rfl⟩ | ⟨-, -, -, rfl⟩ | ⟨-, -, rfl⟩ := execXor_cases d a b s t h
    · exact hs.fail _ _ (infoOk_zero _ _ nofun)
    · exact hs.fail _ _ (infoOk_zero _ _ nofun)
    · exact hs.of_completed hcfg hhost (s.memOk_writeSeq hs.mem d _ _) ⟨rfl, rfl, rfl, rfl⟩ hnone

theorem State.Inv.engineTurn {s t : State} (hs : s.Inv) (h : engineTurn s = .next t) : t.Inv := by
  obtain ⟨-, rfl⟩ | ⟨-, -, rfl⟩ | ⟨-, i, -, hi⟩ := engineTurn_cases s t h
  · exact hs
  · exact hs.fail _ _ (infoOk_zero _ _ nofun)
  · exact hs.exec i hi

/-- A bus write keeps STATUS and ERRINFO in order: an issue clears them, every other write leaves them (R106). -/
theorem State.Inv.busWrite_status {s t : State} (hs : s.Inv) {a : Offset} {v : Word} (h : s.busWrite a v = some t) :
    t.statusOk ∧ t.errinfoOk := by
  obtain rfl | ⟨-, hbusy, hdone, herr, hinfo⟩ := s.busWrite_status t a v h
  · simp [State.statusOk, State.errinfoOk]
  · rw [State.statusOk, State.errinfoOk, hbusy, hdone, herr, hinfo, s.busWrite_cfg t a v h]
    exact ⟨hs.status, hs.errinfo⟩

/-- A host step keeps the invariant; the run ends only in a step that leaves the block as it was (R140). -/
theorem State.Inv.hostTurn {s t : State} (hs : s.Inv) (h : hostTurn s = .next t) : t.Inv := by
  obtain ⟨s', ha, hwrite, rfl, hvars, hended⟩ := hostTurn_cases s t h
  have hblock : s'.cfg.Legal ∧ s'.memOk ∧ s'.statusOk ∧ s'.errinfoOk := by
    obtain rfl | ⟨a, v, hw⟩ := hwrite
    · exact ⟨hs.legal, hs.mem, hs.status, hs.errinfo⟩
    · exact ⟨s.busWrite_cfg s' a v hw ▸ hs.legal, s.memOk_busWrite s' a v hs.legal hs.mem hw, hs.busWrite_status hw⟩
  obtain ⟨hlegal, hmem, hstatus, herrinfo⟩ := hblock
  refine ⟨hlegal, hmem, hstatus, herrinfo, hvars hs.vars, fun hend => ?_⟩
  obtain ⟨rfl, hend | hidle⟩ := hended hend
  · exact hs.ended hend
  · exact hidle

theorem State.Inv.takeTurn {s t : State} (hs : s.Inv) (q : Turn) (h : takeTurn q s = .next t) : t.Inv := by
  obtain ⟨-, hh⟩ | ⟨-, he⟩ | ⟨taken, -, rfl⟩ := takeTurn_cases q s t h
  · exact hs.hostTurn hh
  · exact hs.engineTurn he
  · exact State.inv_of_reset_values _ hs.legal rfl rfl rfl rfl hs.vars

/-- The invariant says nothing of the turns to come. -/
theorem State.Inv.withSched {s : State} (hs : s.Inv) (ts : List Turn) : State.Inv { s with sched := ts } :=
  ⟨hs.legal, hs.mem, hs.status, hs.errinfo, hs.vars, hs.ended⟩

/-- Settles O55: a final state steps to itself, and every turn of host, engine or reset keeps the invariant. -/
theorem stepKeepsInvariant : Obligations.StepKeepsInvariant := by
  intro s t hs h
  cases hf : s.final with
  | true =>
    rw [step_of_final s hf] at h
    injection h with h
    exact h ▸ hs
  | false =>
    obtain ⟨q, ts, hq⟩ := step_eq_takeTurn s hf
    exact (hs.withSched ts).takeTurn q (hq ▸ h)

end Sys2Proof.Machine
end

section
/-! PROOFS. The host bus (spec/20_memory.md): where the targets lie (R42), what each access answers (R38 to R41) and which
are bus errors (R43 to R45), and that a repeated write changes nothing (R48). -/

namespace Sys2Proof.Machine

/-! ### Where the targets lie -/

/-- The bus offset of a target (R30, R38, R39). -/
def Target.offset : Target → Nat
  | .id => 0x00
  | .cap => 0x04
  | .cmd => 0x08
  | .status => 0x0C
  | .errinfo => 0x10
  | .arg => 0x14
  | .tlen => 0x18
  | .vlen r => 0x20 + 4 * VReg.index r
  | .vword r w => vbase r + 4 * w
  | .tword j => tbase + 4 * j

/-- The address map is injective: a target answers at its own offset alone. -/
theorem eq_offset_of_targetAt {c : Config} {a : Nat} {q : Target} (h : targetAt c a = some q) : a = q.offset := by
  obtain ⟨hal, ⟨-, hr⟩ | ⟨r, w, -, ha, rfl⟩ | ⟨j, -, ha, rfl⟩⟩ := targetAt_cases c a q h
  · obtain ⟨hk, rfl⟩ | ⟨hk, rfl⟩ | ⟨hk, rfl⟩ | ⟨hk, rfl⟩ | ⟨hk, rfl⟩ | ⟨hk, rfl⟩ | ⟨hk, rfl⟩ | ⟨r, hk, rfl⟩ :=
      registerAt_cases _ _ hr <;> simp only [Target.offset] <;> omega
  · exact ha
  · exact ha

/-- R45 names the registers up to ERRINFO. -/
theorem Target.readableBusy_iff (q : Target) : q.readableBusy = true ↔ q.offset ≤ 0x10 := by
  cases q with
  | vlen r => simp [Target.readableBusy, Target.offset]; omega
  | vword r w => have := vbase_bounds r; simp [Target.readableBusy, Target.offset]; omega
  | tword j => simp [Target.readableBusy, Target.offset, tbase]; omega
  | _ => simp [Target.readableBusy, Target.offset]

/-- R41 refuses the registers up to ERRINFO but CMD. -/
theorem State.writeTarget_ne_none_iff (s : State) (q : Target) (v : Word) :
    s.writeTarget q v ≠ none ↔ q.offset = 0x08 ∨ 0x14 ≤ q.offset := by
  cases q with
  | vlen r => simp [State.writeTarget, Target.offset]; omega
  | vword r w => have := vbase_bounds r; simp [State.writeTarget, Target.offset]; omega
  | tword j => simp [State.writeTarget, Target.offset, tbase]; omega
  | _ => simp [State.writeTarget, Target.offset]

/-- An offset within the storage of a vector register or of the text buffer (R38, R39). -/
def InWindow (c : Config) (a : Nat) : Prop :=
  (∃ r : VReg, inVector c r a) ∨ (0x80000 ≤ a ∧ a < 0x80000 + c.nmax / 2)

theorem InWindow.le {c : Config} {a : Nat} (h : InWindow c a) : 0x10000 ≤ a := by
  obtain ⟨r, hr, -⟩ | ⟨ht, -⟩ := h
  · have := vbase_bounds r; omega
  · omega

theorem VReg.index_lt (r : VReg) : VReg.index r < 4 := by cases r <;> decide

/-- The registers lie at word indices 0 to 6 and 8 to 11 (R30). -/
theorem exists_registerAt_iff (k : Nat) : (∃ q, registerAt k = some q) ↔ k < 7 ∨ (8 ≤ k ∧ k < 12) := by
  constructor
  · rintro ⟨q, hq⟩
    obtain ⟨rfl, -⟩ | ⟨rfl, -⟩ | ⟨rfl, -⟩ | ⟨rfl, -⟩ | ⟨rfl, -⟩ | ⟨rfl, -⟩ | ⟨rfl, -⟩ | ⟨r, rfl, -⟩ :=
      registerAt_cases k q hq
    any_goals decide
    have := VReg.index_lt r
    omega
  · rintro (hk | ⟨hlo, hhi⟩)
    · interval_cases k <;> exact ⟨_, rfl⟩
    · interval_cases k <;> exact ⟨_, rfl⟩

/-- Below the windows the map is that of the registers (R30, R42). -/
theorem targetAt_eq_registerAt (c : Config) (a : Nat) (hal : a % 4 = 0) (ha : a < 0x10000) :
    targetAt c a = registerAt (a / 4) := by
  rw [targetAt, if_neg (by omega), if_pos ha]

/-- The address map (R42): the aligned offsets of the registers and of the storage, and no others. -/
theorem exists_targetAt_iff {c : Config} (hc : c.Legal) (a : Nat) :
    (∃ q, targetAt c a = some q) ↔
      a % 4 = 0 ∧ (a < 0x1C ∨ (0x20 ≤ a ∧ a < 0x30) ∨ InWindow c a) := by
  have htmax := eight_mul_tmaxOf hc
  have ⟨h32, _⟩ := hc
  constructor
  · rintro ⟨q, hq⟩
    obtain ⟨hal, ⟨ha, hr⟩ | ⟨r, w, hw, rfl, -⟩ | ⟨j, hj, rfl, -⟩⟩ := targetAt_cases c a q hq
    · have := (exists_registerAt_iff _).1 ⟨q, hr⟩
      exact ⟨hal, by omega⟩
    · exact ⟨hal, .inr (.inr (.inl ⟨r, by omega, by omega⟩))⟩
    · exact ⟨hal, .inr (.inr (.inr (by unfold tbase; omega)))⟩
  · rintro ⟨hal, ha | ha | ⟨r, hlo, hhi⟩ | ⟨hlo, hhi⟩⟩
    · rw [targetAt_eq_registerAt c a hal (by omega)]
      exact (exists_registerAt_iff _).2 (by omega)
    · rw [targetAt_eq_registerAt c a hal (by omega)]
      exact (exists_registerAt_iff _).2 (by omega)
    · have hbase : vbase r % 4 = 0 := by unfold vbase; omega
      obtain ⟨w, rfl⟩ : ∃ w, a = vbase r + 4 * w := ⟨(a - vbase r) / 4, by omega⟩
      exact ⟨_, targetAt_vword c hc r w (by omega)⟩
    · obtain ⟨j, rfl⟩ : ∃ j, a = tbase + 4 * j := ⟨(a - tbase) / 4, by unfold tbase; omega⟩
      exact ⟨_, targetAt_tword c j (by unfold tbase at hhi; omega)⟩

/-! ### Which accesses are bus errors -/

/-- A read answers at a mapped offset; while a command is in flight, only up to ERRINFO (R40, R45). -/
theorem State.busRead_ne_none_iff (s : State) (a : Offset) :
    s.busRead a ≠ none ↔ (∃ q, targetAt s.cfg a.toNat = some q) ∧ ¬ (s.busy = true ∧ 0x10 < a.toNat) := by
  simp only [Option.ne_none_iff_exists', s.busRead_eq_some]
  constructor
  · rintro ⟨v, q, hq, hbusy, -⟩
    exact ⟨⟨q, hq⟩, fun ⟨hb, ha⟩ => Nat.not_le.2 ha (eq_offset_of_targetAt hq ▸ q.readableBusy_iff.1 (hbusy hb))⟩
  · rintro ⟨⟨q, hq⟩, hbusy⟩
    have hle (hb : s.busy = true) : a.toNat ≤ 0x10 := Nat.not_lt.1 fun ha => hbusy ⟨hb, ha⟩
    exact ⟨_, q, hq, fun hb => q.readableBusy_iff.2 (eq_offset_of_targetAt hq ▸ hle hb), rfl⟩

/-- A write is accepted with nothing in flight, at a mapped offset that is CMD or above ERRINFO (R41, R45). -/
theorem State.busWrite_ne_none_iff (s : State) (a : Offset) (v : Word) :
    s.busWrite a v ≠ none ↔
      s.busy = false ∧ (∃ q, targetAt s.cfg a.toNat = some q) ∧ (a.toNat = 0x08 ∨ 0x14 ≤ a.toNat) := by
  simp only [Option.ne_none_iff_exists', s.busWrite_eq_some]
  constructor
  · rintro ⟨t, hb, q, hq, hw⟩
    exact ⟨hb, ⟨q, hq⟩, eq_offset_of_targetAt hq ▸ (s.writeTarget_ne_none_iff q v).1 (by simp [hw])⟩
  · rintro ⟨hb, ⟨q, hq⟩, ha⟩
    obtain ⟨t, hw⟩ := Option.ne_none_iff_exists'.1
      ((s.writeTarget_ne_none_iff q v).2 (eq_offset_of_targetAt hq ▸ ha))
    exact ⟨t, hb, q, hq, hw⟩

/-- addr[1:0] is the offset modulo 4 (R43). -/
theorem mod_four_ne_zero_of_extractLsb' (a : Offset) (h : a.extractLsb' 0 2 ≠ 0) : a.toNat % 4 ≠ 0 := by
  contrapose! h
  exact BitVec.eq_of_toNat_eq (by simpa using h)

/-- Settles O12: no target is misaligned. -/
theorem misalignedAccess : Obligations.MisalignedAccess := by
  intro s a v h
  have hal := mod_four_ne_zero_of_extractLsb' a h
  have hnone : ¬ ∃ q, targetAt s.cfg a.toNat = some q := fun ⟨q, hq⟩ => hal (targetAt_cases _ _ q hq).1
  constructor
  · by_contra hr
    exact hnone ((s.busRead_ne_none_iff a).1 hr).1
  · by_contra hw
    exact hnone ((s.busWrite_ne_none_iff a v).1 hw).2.1

/-- Settles O13: the complement of the reads that answer. -/
theorem busReadErrors : Obligations.BusReadErrors := by
  intro s a hc
  rw [← not_iff_not, ← Ne, s.busRead_ne_none_iff, exists_targetAt_iff hc]
  change _ ↔ ¬ (_ ∨ _ ∨ ¬ (_ ∨ _ ∨ InWindow s.cfg a.toNat))
  tauto

/-- Settles O14: the complement of the writes that are accepted. -/
theorem busWriteErrors : Obligations.BusWriteErrors := by
  intro s a v hc
  rw [← not_iff_not, ← Ne, s.busWrite_ne_none_iff, exists_targetAt_iff hc]
  change _ ↔ ¬ (_ ∨ _ ∨ ¬ (_ ∨ _ ∨ _ ∨ _ ∨ InWindow s.cfg a.toNat))
  by_cases hw : InWindow s.cfg a.toNat
  · have := hw.le
    simp [hw]
    omega
  · simp [hw]
    omega

/-! ### What each access answers -/

theorem vwordOffset_lt {c : Config} (hc : c.Legal) (r : VReg) (w : Nat) (h : w < c.nmax / 32) :
    vbase r + 4 * w < 2 ^ 20 := by
  obtain ⟨-, -, hmax, -⟩ := hc
  have := vbase_bounds r
  omega

theorem twordOffset_lt {c : Config} (hc : c.Legal) (j : Nat) (h : j < tmaxOf c) : tbase + 4 * j < 2 ^ 20 := by
  obtain ⟨-, -, hmax, -⟩ := hc
  unfold tmaxOf at h
  unfold tbase
  omega

theorem targetAt_ofNat_vword {c : Config} (hc : c.Legal) (r : VReg) (w : Nat) (h : w < c.nmax / 32) :
    targetAt c (BitVec.ofNat 20 (vbase r + 4 * w)).toNat = some (.vword r w) := by
  rw [BitVec.toNat_ofNat, Nat.mod_eq_of_lt (vwordOffset_lt hc r w h), targetAt_vword c hc r w h]

theorem targetAt_ofNat_tword {c : Config} (hc : c.Legal) (j : Nat) (h : j < tmaxOf c) :
    targetAt c (BitVec.ofNat 20 (tbase + 4 * j)).toNat = some (.tword j) := by
  rw [BitVec.toNat_ofNat, Nat.mod_eq_of_lt (twordOffset_lt hc j h), targetAt_tword c j h]

/-- Bit b of storage word w is element 32 w + 31 - b (R38). -/
theorem State.getLsbD_readWord_vbase (s : State) (r : VReg) (w b : Nat) (hb : b < 32) :
    (Memory.readWord s.mem (vbase r + 4 * w)).getLsbD b = s.vbit r (32 * w + 31 - b) := by
  rw [BitVec.getLsbD_eq_getMsbD, decide_eq_true hb, Bool.true_and, Memory.getMsbD_readWord _ _ _ (by omega), State.vbit,
    show vbase r + 4 * w + (32 - 1 - b) / 8 = vbase r + (32 * w + 31 - b) / 8 by omega,
    show (32 - 1 - b) % 8 = (32 * w + 31 - b) % 8 by omega]

section Idle
variable (s : State) (hc : s.cfg.Legal) (hb : s.busy = false)
include hc hb

theorem State.busRead_vword (r : VReg) (w : Nat) (h : w < s.cfg.nmax / 32) :
    s.busRead (BitVec.ofNat 20 (vbase r + 4 * w)) = some (Memory.readWord s.mem (vbase r + 4 * w)) :=
  s.busRead_of_target _ _ hb (targetAt_ofNat_vword hc r w h)

theorem State.busRead_tword (j : Nat) (h : j < tmaxOf s.cfg) :
    s.busRead (BitVec.ofNat 20 (tbase + 4 * j)) = some (s.text j) :=
  s.busRead_of_target _ _ hb (targetAt_ofNat_tword hc j h)

theorem State.busWrite_vword (r : VReg) (w : Nat) (v : Word) (h : w < s.cfg.nmax / 32) :
    s.busWrite (BitVec.ofNat 20 (vbase r + 4 * w)) v =
      some { s with mem := Memory.writeWord s.mem (vbase r + 4 * w) v } :=
  (s.busWrite_eq_some _ _ _).2 ⟨hb, _, targetAt_ofNat_vword hc r w h, rfl⟩

theorem State.busWrite_tword (j : Nat) (v : Word) (h : j < tmaxOf s.cfg) :
    s.busWrite (BitVec.ofNat 20 (tbase + 4 * j)) v =
      some { s with mem := Memory.writeWord s.mem (tbase + 4 * j) v } :=
  (s.busWrite_eq_some _ _ _).2 ⟨hb, _, targetAt_ofNat_tword hc j h, rfl⟩

end Idle

/-- A state whose storage is that of `s` after a write of storage word w holds the bits of the value there (R38). -/
theorem State.vbit_of_writeWord {s t : State} (r : VReg) (w : Nat) (v : Word)
    (h : t.mem = Memory.writeWord s.mem (vbase r + 4 * w) v) (b : Nat) (hb : b < 32) :
    t.vbit r (32 * w + 31 - b) = v.getLsbD b := by
  rw [← t.getLsbD_readWord_vbase r w b hb, h, Memory.readWord_writeWord]

/-- A state whose storage is that of `s` after a write of text word j holds the value there (R39). -/
theorem State.text_of_writeWord {s t : State} (j : Nat) (v : Word)
    (h : t.mem = Memory.writeWord s.mem (tbase + 4 * j) v) : t.text j = v := by
  rw [State.text, h, Memory.readWord_writeWord]

/-- Settles O11: each register is a target of its own, and the windows hold the words of R38 and R39. -/
theorem busReadValues : Obligations.BusReadValues := by
  intro s hc
  refine ⟨s.busRead_id, s.busRead_cap, (s.busRead_eq_some _ _).2 ⟨.cmd, rfl, fun _ => rfl, rfl⟩, s.busRead_status,
    (s.busRead_eq_some _ _).2 ⟨.errinfo, rfl, fun _ => rfl, rfl⟩, fun hb => ?_⟩
  refine ⟨s.busRead_of_target _ .arg hb rfl, s.busRead_of_target _ .tlen hb rfl,
    fun r => s.busRead_of_target _ _ hb (targetAt_vlen _ r), fun r w hw => ?_, s.busRead_tword hc hb⟩
  exact ⟨_, s.busRead_vword hc hb r w hw, s.getLsbD_readWord_vbase r w⟩

/-- Settles O16: the write of one storage word. -/
theorem vectorWindowWrite : Obligations.VectorWindowWrite := by
  intro s r w v hc hb hw
  refine ⟨_, s.busWrite_vword hc hb r w v hw, State.vbit_of_writeWord r w v rfl, fun a ha => ?_⟩
  exact Memory.get_fill_of_not_mem _ _ _ _ a ha

/-- Settles O17: the write of one text word. -/
theorem textWindowWrite : Obligations.TextWindowWrite := by
  intro s j v hc hb hj
  refine ⟨_, s.busWrite_tword hc hb j v hj, State.text_of_writeWord j v rfl, fun a ha => ?_⟩
  exact Memory.get_fill_of_not_mem _ _ _ _ a ha

/-! ### Writing again -/

/-- Filling a block twice with the same values is filling it once, whatever the form of the storage. -/
theorem Memory.fill_fill {w : Nat} (m : List (Nat × BitVec w)) (base n : Nat) (f : Nat → BitVec w) :
    Memory.fill (Memory.fill m base n f) base n f = Memory.fill m base n f := by
  have hmem {c : Nat × BitVec w}
      (hc : c ∈ ((List.range n).map (fun k => (base + k, f k))).filter (fun c => c.2 != 0)) :
      base ≤ c.1 ∧ c.1 < base + n := by
    obtain ⟨k, hk, rfl⟩ := List.mem_map.1 (List.mem_filter.1 hc).1
    exact ⟨by simp, by simpa using hk⟩
  have hdisj (c : Nat × BitVec w) : (decide (c.1 < base) && decide (base + n ≤ c.1)) = false := by
    simp; omega
  have hmidlow := (List.filter_eq_nil_iff (p := fun c : Nat × BitVec w => decide (c.1 < base))).2
    fun c hc => by simpa using (hmem hc).1
  have hmidhigh := (List.filter_eq_nil_iff (p := fun c : Nat × BitVec w => decide (base + n ≤ c.1))).2
    fun c hc => by simpa using (hmem hc).2
  have hlow : (Memory.fill m base n f).filter (fun c => decide (c.1 < base)) =
      m.filter (fun c => decide (c.1 < base)) := by
    rw [Memory.fill, List.filter_append, List.filter_append, hmidlow]
    simp [List.filter_filter, hdisj]
  have hhigh : (Memory.fill m base n f).filter (fun c => decide (base + n ≤ c.1)) =
      m.filter (fun c => decide (base + n ≤ c.1)) := by
    rw [Memory.fill, List.filter_append, List.filter_append, hmidhigh]
    simp [List.filter_filter, Bool.and_comm (decide (base + n ≤ _)), hdisj]
  rw [Memory.fill, hlow, hhigh, Memory.fill]

/-- A second write of a value to a target other than CMD changes nothing (R48). -/
theorem State.writeTarget_again (s t : State) (q : Target) (v : Word) (hq : q ≠ .cmd) (h : s.writeTarget q v = some t) :
    t.cfg = s.cfg ∧ t.busy = s.busy ∧ t.writeTarget q v = some t := by
  cases q with
  | cmd => exact absurd rfl hq
  | id | cap | status | errinfo => exact nomatch h
  | arg | tlen => obtain rfl := Option.some.inj h; exact ⟨rfl, rfl, rfl⟩
  | vlen r =>
    obtain rfl := Option.some.inj h
    cases r <;> exact ⟨rfl, rfl, rfl⟩
  | vword r w | tword j =>
    obtain rfl := Option.some.inj h
    exact ⟨rfl, rfl, by simp [State.writeTarget, Memory.writeWord, Memory.fill_fill]⟩

/-- Settles O18: the second write reaches the same target, with nothing in flight still. -/
theorem writesIdempotent : Obligations.WritesIdempotent := by
  intro s t a v ha h
  obtain ⟨hb, q, hq, hw⟩ := (s.busWrite_eq_some t a v).1 h
  have hne : q ≠ .cmd := by
    rintro rfl
    exact ha (BitVec.eq_of_toNat_eq (eq_offset_of_targetAt hq))
  obtain ⟨hcfg, hbusy, hagain⟩ := s.writeTarget_again t q v hne hw
  exact (t.busWrite_eq_some t a v).2 ⟨hbusy.trans hb, q, hcfg ▸ hq, hagain⟩

end Sys2Proof.Machine
end

section
/-! PROOFS. The host's accesses (spec/20_memory.md R44, R45; spec/30_encoding.md R64, R65): what a `RD` and a `WR` do, that a
refused one is the only fault, and that a command in flight is out of the host's reach. -/

namespace Sys2Proof.Machine

/-! ### The statement a running host is at -/

/-- A running host performs the statement it is at (R64). -/
theorem takeTurn_host_of_stmt (s : State) (q : HostStmt) (hr : s.host.status = .running)
    (hq : s.host.prog[s.host.pc]? = some q) : takeTurn .host s = s.hostStmt q := by
  simp only [takeTurn, hostTurn, hr, hq]

/-- A `RD` of an offset below 2^20 is the bus read there (R64). -/
theorem State.hostRead_eq (s : State) (off : HostOffset) (x : Nat) (hoff : off.eval s.host.vars < 2 ^ 20) :
    s.hostRead off x =
      (s.busRead (BitVec.ofNat 20 (off.eval s.host.vars))).elim
        (.fault (.busError (BitVec.ofNat 20 (off.eval s.host.vars)))) (fun v => .next (s.hostAssign x v)) := by
  rw [State.hostRead, if_neg (by omega)]
  cases s.busRead (BitVec.ofNat 20 (off.eval s.host.vars)) <;> rfl

/-- A `WR` at an offset below 2^20 is the bus write there (R64). -/
theorem State.hostWrite_eq (s : State) (off : HostOffset) (e : HostValue) (hoff : off.eval s.host.vars < 2 ^ 20) :
    s.hostWrite off e =
      (s.busWrite (BitVec.ofNat 20 (off.eval s.host.vars)) (e.eval s.host.vars)).elim
        (.fault (.busError (BitVec.ofNat 20 (off.eval s.host.vars)))) (fun t => .next t.hostAdvance) := by
  rw [State.hostWrite, if_neg (by omega)]
  cases s.busWrite (BitVec.ofNat 20 (off.eval s.host.vars)) (e.eval s.host.vars) <;> rfl

theorem State.hostRead_fault (s : State) (off : HostOffset) (x : Nat) (f : Fault) (h : s.hostRead off x = .fault f) :
    off.eval s.host.vars < 2 ^ 20 ∧ f = .busError (BitVec.ofNat 20 (off.eval s.host.vars)) ∧
      s.busRead (BitVec.ofNat 20 (off.eval s.host.vars)) = none := by
  by_cases hoff : off.eval s.host.vars < 2 ^ 20
  · rw [s.hostRead_eq off x hoff] at h
    cases hr : s.busRead (BitVec.ofNat 20 (off.eval s.host.vars)) with
    | none => rw [hr] at h; injection h with h; exact ⟨hoff, h.symm, rfl⟩
    | some v => rw [hr] at h; exact nomatch h
  · rw [State.hostRead, if_pos (by omega)] at h
    exact nomatch h

theorem State.hostWrite_fault (s : State) (off : HostOffset) (e : HostValue) (f : Fault)
    (h : s.hostWrite off e = .fault f) :
    off.eval s.host.vars < 2 ^ 20 ∧ f = .busError (BitVec.ofNat 20 (off.eval s.host.vars)) ∧
      s.busWrite (BitVec.ofNat 20 (off.eval s.host.vars)) (e.eval s.host.vars) = none := by
  by_cases hoff : off.eval s.host.vars < 2 ^ 20
  · rw [s.hostWrite_eq off e hoff] at h
    cases hw : s.busWrite (BitVec.ofNat 20 (off.eval s.host.vars)) (e.eval s.host.vars) with
    | none => rw [hw] at h; injection h with h; exact ⟨hoff, h.symm, rfl⟩
    | some t => rw [hw] at h; exact nomatch h
  · rw [State.hostWrite, if_pos (by omega)] at h
    exact nomatch h

/-- A jump does not fault: one without a label is refused (R64). -/
theorem State.hostGoto_ne_fault (s : State) (l : Nat) (f : Fault) : s.hostGoto l ≠ .fault f := by
  unfold State.hostGoto
  split <;> exact nofun

/-- The statement of a fault is a `RD` or a `WR` (R44). -/
theorem State.hostStmt_fault (s : State) (q : HostStmt) (f : Fault) (h : s.hostStmt q = .fault f) :
    (∃ off x, q = .rd off x ∧ s.hostRead off x = .fault f) ∨ ∃ off e, q = .wr off e ∧ s.hostWrite off e = .fault f := by
  cases q with
  | wr off e => exact .inr ⟨off, e, rfl, h⟩
  | rd off x => exact .inl ⟨off, x, rfl, h⟩
  | label l => exact nomatch h
  | goto l => exact absurd h (s.hostGoto_ne_fault l f)
  | ifGoto c l =>
    rw [State.hostStmt] at h
    split at h
    · exact absurd h (s.hostGoto_ne_fault l f)
    · exact nomatch h
  | halt => exact nomatch h

/-- A turn that faults is that of a running host, at a statement that faults. -/
theorem takeTurn_fault (q : Turn) (s : State) (f : Fault) (h : takeTurn q s = .fault f) :
    q = .host ∧ s.host.status = .running ∧ ∃ t, s.host.prog[s.host.pc]? = some t ∧ s.hostStmt t = .fault f := by
  cases q with
  | host =>
    refine ⟨rfl, ?_⟩
    cases hr : s.host.status with
    | running =>
      cases hq : s.host.prog[s.host.pc]? with
      | none => simp [takeTurn, hostTurn, hr, hq] at h
      | some t => exact ⟨rfl, t, rfl, (takeTurn_host_of_stmt s t hr hq).symm.trans h⟩
    | ended => exact nomatch (hostTurn_halted s (by simp [hr])).symm.trans h
    | haltedInFlight => exact nomatch (hostTurn_halted s (by simp [hr])).symm.trans h
  | engine =>
    obtain ⟨t, ht⟩ := engineTurn_answers s
    exact nomatch ht.symm.trans h
  | reset taken => exact nomatch h

/-- Settles O44: a refused access faults, and a fault comes from a statement that is a refused `RD` or `WR`. -/
theorem onlyBusErrorsFault : Obligations.OnlyBusErrorsFault := by
  refine ⟨fun s off e hr hq hoff hnone => ?_, fun s off x hr hq hoff hnone => ?_, fun q s f h => ?_⟩
  · rw [takeTurn_host_of_stmt s _ hr hq, State.hostStmt, s.hostWrite_eq off e hoff, hnone, Option.elim_none]
  · rw [takeTurn_host_of_stmt s _ hr hq, State.hostStmt, s.hostRead_eq off x hoff, hnone, Option.elim_none]
  · obtain ⟨rfl, hr, t, ht, hf⟩ := takeTurn_fault q s f h
    refine ⟨rfl, hr, ?_⟩
    obtain ⟨off, x, rfl, hread⟩ | ⟨off, e, rfl, hwrite⟩ := s.hostStmt_fault t f hf
    · obtain ⟨hoff, hf, hnone⟩ := s.hostRead_fault off x f hread
      exact ⟨off, hoff, hf, .inl ⟨x, ht, hnone⟩⟩
    · obtain ⟨hoff, hf, hnone⟩ := s.hostWrite_fault off e f hwrite
      exact ⟨off, hoff, hf, .inr ⟨e, ht, hnone⟩⟩

/-! ### Accesses that answer -/

/-- A running host at a `RD` that is answered (R64). -/
theorem takeTurn_host_rd (s : State) (off : HostOffset) (x : Nat) (v : Word) (hr : s.host.status = .running)
    (hq : s.host.prog[s.host.pc]? = some (.rd off x)) (hoff : off.eval s.host.vars < 2 ^ 20)
    (hread : s.busRead (BitVec.ofNat 20 (off.eval s.host.vars)) = some v) :
    takeTurn .host s = .next (s.hostAssign x v) := by
  rw [takeTurn_host_of_stmt s _ hr hq, State.hostStmt, s.hostRead_eq off x hoff, hread, Option.elim_some]

/-- A running host at a `WR` that is accepted (R64). -/
theorem takeTurn_host_wr (s u : State) (off : HostOffset) (e : HostValue) (hr : s.host.status = .running)
    (hq : s.host.prog[s.host.pc]? = some (.wr off e)) (hoff : off.eval s.host.vars < 2 ^ 20)
    (hwrite : s.busWrite (BitVec.ofNat 20 (off.eval s.host.vars)) (e.eval s.host.vars) = some u) :
    takeTurn .host s = .next u.hostAdvance := by
  rw [takeTurn_host_of_stmt s _ hr hq, State.hostStmt, s.hostWrite_eq off e hoff, hwrite, Option.elim_some]

/-- The variable a `RD` names holds the value read, every other what it held (R64). -/
theorem State.get_hostAssign (s : State) (x y : Nat) (v : Word) :
    Memory.get (s.hostAssign x v).host.vars y = if y = x then v else Memory.get s.host.vars y := by
  rw [State.hostAssign_vars, Memory.get_fill]
  exact if_congr (by omega) rfl rfl

/-- A bus write touches the block alone. -/
theorem State.busWrite_host (s t : State) (a : Offset) (v : Word) (h : s.busWrite a v = some t) : t.host = s.host := by
  obtain ⟨-, rfl | rfl | rfl | ⟨r, rfl⟩ | ⟨r, w, -, rfl⟩ | ⟨j, -, rfl⟩⟩ := s.busWrite_cases t a v h <;> simp

/-- Settles O45: the host's assignment of the value read. -/
theorem hostReadStep : Obligations.HostReadStep := by
  intro s off x v hr hq hoff hread
  refine ⟨_, takeTurn_host_rd s off x v hr hq hoff hread, rfl, rfl, ?_, fun y hy => ?_, rfl, hr⟩
  · rw [s.get_hostAssign x x v, if_pos rfl]
  · rw [s.get_hostAssign x y v, if_neg hy]

/-- Settles O46: the write leaves the host alone, which then goes on. -/
theorem hostWriteStep : Obligations.HostWriteStep := by
  intro s u off e hr hq hoff hwrite
  rw [takeTurn_host_wr s u off e hr hq hoff hwrite, State.hostAdvance, s.busWrite_host u _ _ hwrite]

/-- Settles O47: `VW` and `TW` denote the offsets of the storage and text words (R65), at which each access answers. -/
theorem hostWindowAccess : Obligations.HostWindowAccess := by
  intro s r e f x hc hr hb
  refine ⟨fun hw => ⟨fun hq => ?_, fun hq => ?_⟩, fun hj => ⟨fun hq => ?_, fun hq => ?_⟩⟩
  · refine ⟨_, takeTurn_host_rd s _ x _ hr hq (vwordOffset_lt hc r _ hw) (s.busRead_vword hc hb r _ hw), fun b hlt => ?_⟩
    rw [s.get_hostAssign, if_pos rfl, s.getLsbD_readWord_vbase r _ b hlt]
  · exact ⟨_, takeTurn_host_wr s _ _ f hr hq (vwordOffset_lt hc r _ hw) (s.busWrite_vword hc hb r _ _ hw),
      State.vbit_of_writeWord r _ _ rfl⟩
  · refine ⟨_, takeTurn_host_rd s _ x _ hr hq (twordOffset_lt hc _ hj) (s.busRead_tword hc hb _ hj), ?_⟩
    rw [s.get_hostAssign, if_pos rfl]
  · exact ⟨_, takeTurn_host_wr s _ _ f hr hq (twordOffset_lt hc _ hj) (s.busWrite_tword hc hb _ _ hj),
      State.text_of_writeWord _ _ rfl⟩

/-! ### While a command is in flight -/

theorem State.busWrite_busy (s : State) (hb : s.busy = true) (a : Offset) (v : Word) : s.busWrite a v = none := by
  by_contra h
  exact absurd ((s.busWrite_ne_none_iff a v).1 h).1 (by simp [hb])

/-- While a command is in flight the five registers up to ERRINFO answer a read (R45). -/
theorem State.busRead_busy_ne_none_iff (s : State) (hb : s.busy = true) (a : Offset) :
    s.busRead a ≠ none ↔ a = 0x00000 ∨ a = 0x00004 ∨ a = 0x00008 ∨ a = 0x0000C ∨ a = 0x00010 := by
  rw [s.busRead_ne_none_iff]
  constructor
  · rintro ⟨⟨q, hq⟩, hle⟩
    have hal := (targetAt_cases _ _ q hq).1
    have hle : a.toNat ≤ 0x10 := Nat.not_lt.1 fun ha => hle ⟨hb, ha⟩
    bv_omega
  · rintro (rfl | rfl | rfl | rfl | rfl)
    · exact ⟨⟨.id, rfl⟩, by simp⟩
    · exact ⟨⟨.cap, rfl⟩, by simp⟩
    · exact ⟨⟨.cmd, rfl⟩, by simp⟩
    · exact ⟨⟨.status, rfl⟩, by simp⟩
    · exact ⟨⟨.errinfo, rfl⟩, by simp⟩

/-- Settles O43: every write is refused in flight, so a host step that answers wrote nothing to the block. -/
theorem busyBlockUndisturbed : Obligations.BusyBlockUndisturbed := by
  refine fun s hb => ⟨s.busRead_busy_ne_none_iff hb, s.busWrite_busy hb, fun t h => ?_⟩
  obtain ⟨s', ha, rfl | ⟨a, v, hw⟩, rfl, -, -⟩ := hostTurn_cases s t h
  · rfl
  · exact nomatch (s.busWrite_busy hb a v).symm.trans hw

end Sys2Proof.Machine
end

section
/-! PROOFS. The storage and the commands (spec/20_memory.md): ENCODE's result as packed words (R47), and that the storage
beyond an operand's length is not read (R49). -/

namespace Sys2Proof.Machine

/-! ### Packed words -/

/-- A bit string put before another has the weight of the other's width. -/
theorem toNat_append_eq_add {m n : Nat} (x : BitVec m) (y : BitVec n) :
    (x ++ y).toNat = x.toNat * 2 ^ n + y.toNat := by
  rw [BitVec.toNat_append, ← Nat.shiftLeft_add_eq_or_of_lt y.isLt, Nat.shiftLeft_eq]

/-- The value of a storage word by its bytes, the lowest-numbered the most significant (R46). -/
theorem Memory.toNat_readWord (m : List Host.Cell) (a : Nat) :
    (Memory.readWord m a).toNat = (Memory.get m a).toNat * 2 ^ 24 + (Memory.get m (a + 1)).toNat * 2 ^ 16
      + (Memory.get m (a + 2)).toNat * 2 ^ 8 + (Memory.get m (a + 3)).toNat := by
  rw [Memory.readWord, toNat_append_eq_add, toNat_append_eq_add, toNat_append_eq_add]
  ring

/-- Packed byte k of ENCODE's result is character k, a missing one 0 (R46, R72). -/
theorem State.toNat_seqByte_encodeBit (s : State) (n k : Nat) (hb : ∀ j, j < n → (s.text j).toNat ≤ 255) :
    (seqByte (8 * n) s.encodeBit k).toNat = if k < n then (s.text k).toNat else 0 := by
  split
  · rename_i hk
    have hbyte : seqByte (8 * n) s.encodeBit k = val8 (bits8 (s.text k)) := by
      refine val8_congr _ _ fun m hm => ?_
      rw [decide_eq_true (by omega), Bool.true_and, State.encodeBit, show (8 * k + m) / 8 = k by omega,
        show (8 * k + m) % 8 = m by omega]
    have := hb k hk
    rw [hbyte, val8_bits8, BitVec.toNat_setWidth, Nat.mod_eq_of_lt (by omega)]
  · have hbyte : seqByte (8 * n) s.encodeBit k = val8 (fun _ => false) := by
      refine val8_congr _ _ fun m hm => ?_
      rw [decide_eq_false (by omega), Bool.false_and]
    rw [hbyte]
    rfl

/-- Settles O21: the four bytes of a storage word of ENCODE's destination are four characters. -/
theorem encodePacksWords : Obligations.EncodePacksWords := by
  intro s t d w hc hn hb h hw
  obtain rfl : _ = t := Host.Outcome.next.inj ((execEncode_success d s hn hb).symm.trans h)
  have h32 := hc.1
  have hbyte (k : Nat) (hk : k < 4) :
      (Memory.get (s.writeSeq d (8 * s.tlenNat) s.encodeBit).complete.mem (vbase d + 4 * w + k)).toNat =
        if 4 * w + k < s.tlen.toNat then (s.text (4 * w + k)).toNat else 0 := by
    rw [State.complete_mem, State.writeSeq_mem, Nat.add_assoc, Memory.get_fill_of_mem _ _ _ _ _ (by omega)]
    exact s.toNat_seqByte_encodeBit s.tlenNat _ hb
  refine ⟨_, State.busRead_vword _ (by simpa using hc) rfl d w (by simpa using hw), ?_⟩
  have hfirst := hbyte 0 (by omega)
  rw [Nat.add_zero, Nat.add_zero] at hfirst
  rw [Memory.toNat_readWord, hfirst, hbyte 1 (by omega), hbyte 2 (by omega), hbyte 3 (by omega), ite_zero_mul, ite_zero_mul,
    ite_zero_mul]

/-! ### Storage beyond the operand length -/

theorem execEncode_capacity (d : VReg) (s : State) (h : tmaxOf s.cfg < s.tlenNat) :
    execEncode d s = .next (s.fail .capacity 0) := by
  rw [execEncode, if_pos h]

theorem execEncode_encoding (d : VReg) (s : State) (h : s.tlenNat ≤ tmaxOf s.cfg) (j : Nat) (hj : s.firstBad = some j) :
    execEncode d s = .next (s.fail .encoding (BitVec.ofNat 32 j)) := by
  rw [execEncode, if_neg (by omega), hj]

theorem execDecode_capacity (a : VReg) (s : State) (h : s.cfg.nmax < s.vlenNat a) :
    execDecode a s = .next (s.fail .capacity 0) := by
  rw [execDecode, if_pos h]

theorem execDecode_decoding (a : VReg) (s : State) (h : s.vlenNat a ≤ s.cfg.nmax) (h8 : s.vlenNat a % 8 ≠ 0) :
    execDecode a s = .next (s.fail .decoding 0) := by
  rw [execDecode, if_neg (by omega), if_pos h8]

theorem execXor_capacity (d a b : VReg) (s : State) (h : s.cfg.nmax < s.vlenNat a ∨ s.cfg.nmax < s.vlenNat b) :
    execXor d a b s = .next (s.fail .capacity 0) := by
  rw [execXor, if_pos h]

theorem execXor_length (d a b : VReg) (s : State) (ha : s.vlenNat a ≤ s.cfg.nmax) (hb : s.vlenNat b ≤ s.cfg.nmax)
    (h : s.vlenNat a ≠ s.vlenNat b) : execXor d a b s = .next (s.fail .length 0) := by
  rw [execXor, if_neg (by omega), if_pos h]

/-- Sequences that agree below their length are the same result (R75, R90). -/
theorem State.vbit_writeSeq_congr {s s' : State} (hc : s.cfg.Legal) (hcfg : s'.cfg = s.cfg) (d : VReg) (L : Nat)
    (g g' : Nat → Bool) (h : ∀ i, i < L → g' i = g i) (i : Nat) (hi : i < s.cfg.nmax) :
    (s'.writeSeq d L g').vbit d i = (s.writeSeq d L g).vbit d i := by
  rw [s.vbit_writeSeq hc d L g i hi, s'.vbit_writeSeq (hcfg ▸ hc) d L g' i (hcfg ▸ hi)]
  by_cases hL : i < L
  · rw [h i hL]
  · simp [hL]

/-- The operands of XOR: two lengths, and the elements below them (R49). -/
theorem execXor_congr {s s' : State} (d a b : VReg) (hc : s.cfg.Legal) (hcfg : s'.cfg = s.cfg)
    (hva : s'.vlenNat a = s.vlenNat a) (hvb : s'.vlenNat b = s.vlenNat b)
    (ha : ∀ i, i < s.vlenNat a → s'.vbit a i = s.vbit a i) (hb : ∀ i, i < s.vlenNat b → s'.vbit b i = s.vbit b i) :
    ∃ t t', execXor d a b s = .next t ∧ execXor d a b s' = .next t' ∧ t'.err = t.err ∧
      (t.err = 0 → t'.vlen d = t.vlen d ∧ ∀ i, i < s.cfg.nmax → t'.vbit d i = t.vbit d i) := by
  by_cases hcap : s.cfg.nmax < s.vlenNat a ∨ s.cfg.nmax < s.vlenNat b
  · exact ⟨_, _, execXor_capacity d a b s hcap, execXor_capacity d a b s' (by rwa [hcfg, hva, hvb]), rfl, nofun⟩
  · obtain ⟨hla, hlb⟩ : s.vlenNat a ≤ s.cfg.nmax ∧ s.vlenNat b ≤ s.cfg.nmax := by omega
    by_cases hlen : s.vlenNat a = s.vlenNat b
    · refine ⟨_, _, execXor_success d a b s hla hlen,
        execXor_success d a b s' (by rwa [hcfg, hva]) (by rwa [hva, hvb]), rfl, fun _ => ⟨by simp [hva], fun i hi => ?_⟩⟩
      rw [State.complete_vbit, State.complete_vbit, hva]
      refine State.vbit_writeSeq_congr hc hcfg d _ _ _ (fun k hk => ?_) i hi
      rw [State.xorBit, State.xorBit, ha k hk, hb k (hlen ▸ hk)]
    · exact ⟨_, _, execXor_length d a b s hla hlb hlen,
        execXor_length d a b s' (by rwa [hcfg, hva]) (by rwa [hcfg, hvb]) (by rwa [hva, hvb]), rfl, nofun⟩

/-- The operands of ENCODE: TLEN, and the words below it (R49). -/
theorem execEncode_congr {s s' : State} (d : VReg) (hc : s.cfg.Legal) (hcfg : s'.cfg = s.cfg)
    (hn : s'.tlenNat = s.tlenNat) (ht : ∀ j, j < s.tlenNat → s'.text j = s.text j) :
    ∃ t t', execEncode d s = .next t ∧ execEncode d s' = .next t' ∧ t'.err = t.err ∧ t'.errinfo = t.errinfo ∧
      (t.err = 0 → t'.vlen d = t.vlen d ∧ ∀ i, i < s.cfg.nmax → t'.vbit d i = t.vbit d i) := by
  have hbad : s'.firstBad = s.firstBad := by
    rw [State.firstBad, State.firstBad, hn]
    exact List.find?_congr fun j hj => by rw [ht j (List.mem_range.1 hj)]
  by_cases hcap : tmaxOf s.cfg < s.tlenNat
  · exact ⟨_, _, execEncode_capacity d s hcap, execEncode_capacity d s' (by rwa [hcfg, hn]), rfl, rfl, nofun⟩
  · have hle : s.tlenNat ≤ tmaxOf s.cfg := by omega
    have hle' : s'.tlenNat ≤ tmaxOf s'.cfg := by rwa [hcfg, hn]
    cases hj : s.firstBad with
    | some j => exact ⟨_, _, execEncode_encoding d s hle j hj, execEncode_encoding d s' hle' j (hbad.trans hj), rfl, rfl, nofun⟩
    | none =>
      refine ⟨_, _, execEncode_success d s hle (s.firstBad_eq_none.1 hj),
        execEncode_success d s' hle' (s'.firstBad_eq_none.1 (hbad.trans hj)), rfl, rfl,
        fun _ => ⟨by simp [hn], fun i hi => ?_⟩⟩
      rw [State.complete_vbit, State.complete_vbit, hn]
      refine State.vbit_writeSeq_congr hc hcfg d _ _ _ (fun k hk => ?_) i hi
      rw [State.encodeBit, State.encodeBit, ht _ (by omega)]

/-- The operand of DECODE: a length, and the elements below it (R49). -/
theorem execDecode_congr {s s' : State} (a : VReg) (hcfg : s'.cfg = s.cfg)
    (hva : s'.vlenNat a = s.vlenNat a) (ha : ∀ i, i < s.vlenNat a → s'.vbit a i = s.vbit a i) :
    ∃ t t', execDecode a s = .next t ∧ execDecode a s' = .next t' ∧ t'.err = t.err ∧
      (t.err = 0 → t'.tlen = t.tlen ∧ ∀ j, j < tmaxOf s.cfg → t'.text j = t.text j) := by
  by_cases hcap : s.cfg.nmax < s.vlenNat a
  · exact ⟨_, _, execDecode_capacity a s hcap, execDecode_capacity a s' (by rwa [hcfg, hva]), rfl, nofun⟩
  · have hle : s.vlenNat a ≤ s.cfg.nmax := by omega
    have hle' : s'.vlenNat a ≤ s'.cfg.nmax := by rwa [hcfg, hva]
    by_cases h8 : s.vlenNat a % 8 = 0
    · refine ⟨_, _, execDecode_success a s hle h8, execDecode_success a s' hle' (by rwa [hva]), rfl,
        fun _ => ⟨by simp [hva], fun j hj => ?_⟩⟩
      rw [State.complete_text, State.complete_text, s.text_writeText _ _ j hj, s'.text_writeText _ _ j (hcfg ▸ hj), hva]
      split
      · rw [State.decodeWordAt, State.decodeWordAt, val8_congr _ _ fun m hm => ha (8 * j + m) (by omega)]
      · rfl
    · exact ⟨_, _, execDecode_decoding a s hle h8, execDecode_decoding a s' hle' (by rwa [hva]), rfl, nofun⟩

/-- Settles O37: each of the three commands is determined by its operands. -/
theorem storageBeyondLengthUnread : Obligations.StorageBeyondLengthUnread := by
  refine fun s s' d a b hc hcfg => ⟨fun ⟨hva, hvb, ha, hb⟩ => ?_, fun ⟨hn, ht⟩ => ?_, fun ⟨hva, ha⟩ => ?_⟩
  · exact execXor_congr d a b hc hcfg (congrArg BitVec.toNat hva) (congrArg BitVec.toNat hvb) ha hb
  · exact execEncode_congr d hc hcfg (congrArg BitVec.toNat hn) ht
  · exact execDecode_congr a hcfg (congrArg BitVec.toNat hva) ha

end Sys2Proof.Machine
end

section
/-! PROOFS. The command word (spec/30_encoding.md R56 to R63): the encoder and the decoder undo each other, and from this
the rows of R58, the count of R59, the illegal words of R60 and the assembler values of R63. -/

namespace Sys2Proof

/-! ### Encoder and decoder -/

/-- Everything the decoder accepts (R59). -/
theorem decodeWord_cases (w : Word) (i : Instr) (h : decodeWord w = .ok i) :
    fieldRsv w = 0 ∧
      ((fieldOp w = 1 ∧ (fieldVa w = 0 ∧ fieldVb w = 0) ∧ i = .encode (VReg.ofBits (fieldVd w))) ∨
      (fieldOp w = 2 ∧ (fieldVb w = 0 ∧ fieldVd w = 0) ∧ i = .decode (VReg.ofBits (fieldVa w))) ∨
      (fieldOp w = 3 ∧ (fieldVa w = 0 ∧ fieldVb w = 0) ∧ i = .keygen (VReg.ofBits (fieldVd w))) ∨
      (fieldOp w = 4 ∧ i = .xor (VReg.ofBits (fieldVd w)) (VReg.ofBits (fieldVa w)) (VReg.ofBits (fieldVb w)))) := by
  unfold decodeWord at h
  split at h
  · exact nomatch h
  · rename_i hrsv
    refine ⟨not_not.1 hrsv, ?_⟩
    split at h
    · rename_i hop
      split at h
      · rename_i hf; exact .inl ⟨hop, hf, (Except.ok.inj h).symm⟩
      · exact nomatch h
    · split at h
      · rename_i hop
        split at h
        · rename_i hf; exact .inr (.inl ⟨hop, hf, (Except.ok.inj h).symm⟩)
        · exact nomatch h
      · split at h
        · rename_i hop
          split at h
          · rename_i hf; exact .inr (.inr (.inl ⟨hop, hf, (Except.ok.inj h).symm⟩))
          · exact nomatch h
        · split at h
          · rename_i hop; exact .inr (.inr (.inr ⟨hop, (Except.ok.inj h).symm⟩))
          · exact nomatch h

theorem decodeWord_encodeWord (i : Instr) : decodeWord (encodeWord i) = .ok i := by
  cases i <;> simp [decodeWord, encodeWord]

theorem encodeWord_of_decodeWord (w : Word) (i : Instr) (h : decodeWord w = .ok i) : encodeWord i = w := by
  rw [← packFields_fields w]
  obtain ⟨hrsv, ⟨hop, ⟨hva, hvb⟩, rfl⟩ | ⟨hop, ⟨hvb, hvd⟩, rfl⟩ | ⟨hop, ⟨hva, hvb⟩, rfl⟩ | ⟨hop, rfl⟩⟩ :=
    decodeWord_cases w i h
  · rw [encodeWord, VReg.bits_ofBits, hop, hva, hvb, hrsv]
  · rw [encodeWord, VReg.bits_ofBits, hop, hvb, hvd, hrsv]
  · rw [encodeWord, VReg.bits_ofBits, hop, hva, hvb, hrsv]
  · rw [encodeWord, VReg.bits_ofBits, VReg.bits_ofBits, VReg.bits_ofBits, hop, hrsv]

theorem decodeWord_eq_ok_iff (w : Word) (i : Instr) : decodeWord w = .ok i ↔ encodeWord i = w := by
  refine ⟨encodeWord_of_decodeWord w i, ?_⟩
  rintro rfl
  exact decodeWord_encodeWord i

/-- Settles O3: encoding undoes decoding field by field, and decoding undoes encoding command by command. -/
theorem decodeEncodeAgree : Obligations.DecodeEncodeAgree := decodeWord_eq_ok_iff

theorem encodeWord_injective : Function.Injective encodeWord := fun i j h => by
  rw [← decodeWord_eq_ok_iff, decodeWord_encodeWord] at h
  exact (Except.ok.inj h).symm

/-- Settles O1: each of the words is the encoding of its command. -/
theorem encodingExamplesDecode : Obligations.EncodingExamplesDecode := by
  simp only [Obligations.EncodingExamplesDecode, decodeWord_eq_ok_iff]
  decide

/-! ### Match and mask -/

/-- A word is packed from its fields and from no others (R56). -/
theorem eq_packFields_iff (w : Word) (op : BitVec 4) (vd va vb : BitVec 2) (rsv : BitVec 22) :
    w = packFields op vd va vb rsv ↔
      fieldOp w = op ∧ fieldVd w = vd ∧ fieldVa w = va ∧ fieldVb w = vb ∧ fieldRsv w = rsv := by
  constructor
  · rintro rfl
    simp
  · rintro ⟨rfl, rfl, rfl, rfl, rfl⟩
    exact (packFields_fields w).symm

/-- A mask acts on each field by itself. -/
theorem and_packFields (w : Word) (op : BitVec 4) (vd va vb : BitVec 2) (rsv : BitVec 22) :
    w &&& packFields op vd va vb rsv =
      packFields (fieldOp w &&& op) (fieldVd w &&& vd) (fieldVa w &&& va) (fieldVb w &&& vb) (fieldRsv w &&& rsv) := by
  have hand (i n : Nat) (x y : Word) : (x &&& y).extractLsb' i n = x.extractLsb' i n &&& y.extractLsb' i n :=
    BitVec.extractLsb'_and
  have hmask := (eq_packFields_iff _ op vd va vb rsv).1 rfl
  simp only [fieldOp, fieldVd, fieldVa, fieldVb, fieldRsv] at hmask
  simp only [eq_packFields_iff, fieldOp, fieldVd, fieldVa, fieldVb, fieldRsv, hand, hmask, and_self]

/-- The words of the rows of ENCODE and KEYGEN, whose mask leaves VD free (R58). -/
theorem and_maskVd_eq_iff (w : Word) (op : BitVec 4) :
    w &&& 0xFFFFFFCF = packFields op 0 0 0 0 ↔ fieldOp w = op ∧ fieldVa w = 0 ∧ fieldVb w = 0 ∧ fieldRsv w = 0 := by
  have hmask : (0xFFFFFFCF : Word) =
      packFields (BitVec.allOnes 4) 0 (BitVec.allOnes 2) (BitVec.allOnes 2) (BitVec.allOnes 22) := by
    decide
  rw [hmask, and_packFields, eq_packFields_iff]
  simp [-BitVec.reduceAllOnes]

/-- The words of the row of DECODE, whose mask leaves VA free (R58). -/
theorem and_maskVa_eq_iff (w : Word) (op : BitVec 4) :
    w &&& 0xFFFFFF3F = packFields op 0 0 0 0 ↔ fieldOp w = op ∧ fieldVd w = 0 ∧ fieldVb w = 0 ∧ fieldRsv w = 0 := by
  have hmask : (0xFFFFFF3F : Word) =
      packFields (BitVec.allOnes 4) (BitVec.allOnes 2) 0 (BitVec.allOnes 2) (BitVec.allOnes 22) := by
    decide
  rw [hmask, and_packFields, eq_packFields_iff]
  simp [-BitVec.reduceAllOnes]

/-- The words of the row of XOR, whose mask leaves VD, VA and VB free (R58). -/
theorem and_maskOperands_eq_iff (w : Word) (op : BitVec 4) :
    w &&& 0xFFFFFC0F = packFields op 0 0 0 0 ↔ fieldOp w = op ∧ fieldRsv w = 0 := by
  have hmask : (0xFFFFFC0F : Word) =
      packFields (BitVec.allOnes 4) 0 0 0 (BitVec.allOnes 22) := by
    decide
  rw [hmask, and_packFields, eq_packFields_iff]
  simp [-BitVec.reduceAllOnes]

/-! ### The legal words by their fields -/

section Legal
variable (w : Word)

theorem decodeWord_eq_encode_iff : decodeWord w = .ok (.encode (VReg.ofBits (fieldVd w))) ↔
    fieldOp w = 1 ∧ fieldVa w = 0 ∧ fieldVb w = 0 ∧ fieldRsv w = 0 := by
  simp [decodeWord_eq_ok_iff, encodeWord, eq_comm (b := w), eq_packFields_iff]

theorem decodeWord_eq_decode_iff : decodeWord w = .ok (.decode (VReg.ofBits (fieldVa w))) ↔
    fieldOp w = 2 ∧ fieldVd w = 0 ∧ fieldVb w = 0 ∧ fieldRsv w = 0 := by
  simp [decodeWord_eq_ok_iff, encodeWord, eq_comm (b := w), eq_packFields_iff]

theorem decodeWord_eq_keygen_iff : decodeWord w = .ok (.keygen (VReg.ofBits (fieldVd w))) ↔
    fieldOp w = 3 ∧ fieldVa w = 0 ∧ fieldVb w = 0 ∧ fieldRsv w = 0 := by
  simp [decodeWord_eq_ok_iff, encodeWord, eq_comm (b := w), eq_packFields_iff]

theorem decodeWord_eq_xor_iff :
    decodeWord w = .ok (.xor (VReg.ofBits (fieldVd w)) (VReg.ofBits (fieldVa w)) (VReg.ofBits (fieldVb w))) ↔
    fieldOp w = 4 ∧ fieldRsv w = 0 := by
  simp [decodeWord_eq_ok_iff, encodeWord, eq_comm (b := w), eq_packFields_iff]

theorem exists_decodeWord_error_iff : (∃ e, decodeWord w = .error e) ↔ ¬ ∃ i, decodeWord w = .ok i := by
  cases decodeWord w <;> simp

/-- The legal words, opcode by opcode (R58, R59): a command has its operands at their fields, so one command an opcode is
enough to look at. -/
theorem exists_decodeWord_ok_iff :
    (∃ i, decodeWord w = .ok i) ↔
      (fieldOp w = 1 ∧ fieldVa w = 0 ∧ fieldVb w = 0 ∧ fieldRsv w = 0) ∨
      (fieldOp w = 2 ∧ fieldVd w = 0 ∧ fieldVb w = 0 ∧ fieldRsv w = 0) ∨
      (fieldOp w = 3 ∧ fieldVa w = 0 ∧ fieldVb w = 0 ∧ fieldRsv w = 0) ∨
      (fieldOp w = 4 ∧ fieldRsv w = 0) := by
  rw [← decodeWord_eq_encode_iff, ← decodeWord_eq_decode_iff, ← decodeWord_eq_keygen_iff, ← decodeWord_eq_xor_iff]
  constructor
  · rintro ⟨i, h⟩
    obtain ⟨-, ⟨-, -, rfl⟩ | ⟨-, -, rfl⟩ | ⟨-, -, rfl⟩ | ⟨-, rfl⟩⟩ := decodeWord_cases w i h
    · exact .inl h
    · exact .inr (.inl h)
    · exact .inr (.inr (.inl h))
    · exact .inr (.inr (.inr h))
  · rintro (h | h | h | h) <;> exact ⟨_, h⟩

end Legal

/-- Settles O4: each row asks of the fields what the decoder asks for the row's command. -/
theorem decodeFollowsRows : Obligations.DecodeFollowsRows := by
  intro w
  have hencode : w &&& 0xFFFFFFCF = 0x00000001 ↔ _ := and_maskVd_eq_iff w 1
  have hdecode : w &&& 0xFFFFFF3F = 0x00000002 ↔ _ := and_maskVa_eq_iff w 2
  have hkeygen : w &&& 0xFFFFFFCF = 0x00000003 ↔ _ := and_maskVd_eq_iff w 3
  have hxor : w &&& 0xFFFFFC0F = 0x00000004 ↔ _ := and_maskOperands_eq_iff w 4
  rw [ne_eq, ne_eq, ne_eq, ne_eq, hencode, hdecode, hkeygen, hxor]
  refine ⟨(decodeWord_eq_encode_iff w).symm, (decodeWord_eq_decode_iff w).symm, (decodeWord_eq_keygen_iff w).symm,
    (decodeWord_eq_xor_iff w).symm, ?_⟩
  rw [exists_decodeWord_error_iff, exists_decodeWord_ok_iff, not_or, not_or, not_or]

/-! ### Illegal words -/

/-- A word with a bit of RSV set is one whose RSV is not 0 (R56). -/
theorem exists_reserved_bit_iff (w : Word) :
    (∃ k, 10 ≤ k ∧ k < 32 ∧ w.getLsbD k = true) ↔ fieldRsv w ≠ 0 := by
  rw [← not_iff_not, not_not]
  constructor
  · intro h
    refine BitVec.eq_of_getLsbD_eq fun i hi => ?_
    simpa [fieldRsv, hi] using fun hb => h ⟨10 + i, by omega, by omega, hb⟩
  · rintro h ⟨k, hk, hk', hb⟩
    have hz : (fieldRsv w).getLsbD (k - 10) = false := by simp [h]
    simp [fieldRsv, show k - 10 < 22 by omega, show 10 + (k - 10) = k by omega, hb] at hz

theorem opcode_reserved_iff (op : BitVec 4) :
    op = 0 ∨ 5 ≤ op.toNat ↔ op ≠ 1 ∧ op ≠ 2 ∧ op ≠ 3 ∧ op ≠ 4 := by
  revert op
  decide

/-- Settles O6: opcode by opcode, what the decoder does not accept is one of R60's clauses. -/
theorem illegalWords : Obligations.IllegalWords := by
  intro w
  change _ ↔ (fieldOp w = 0 ∨ 5 ≤ (fieldOp w).toNat) ∨ _ ∨
    ((fieldOp w = 1 ∨ fieldOp w = 3) ∧ (fieldVa w ≠ 0 ∨ fieldVb w ≠ 0)) ∨
    (fieldOp w = 2 ∧ (fieldVd w ≠ 0 ∨ fieldVb w ≠ 0))
  rw [exists_decodeWord_error_iff, exists_decodeWord_ok_iff, exists_reserved_bit_iff, opcode_reserved_iff]
  by_cases h1 : fieldOp w = 1
  · simp [h1, imp_iff_not_or, or_comm, or_left_comm]
  · by_cases h2 : fieldOp w = 2
    · simp [h2, imp_iff_not_or, or_assoc, or_comm]
    · by_cases h3 : fieldOp w = 3
      · simp [h3, imp_iff_not_or, or_comm, or_left_comm]
      · by_cases h4 : fieldOp w = 4
        · simp [h4]
        · tauto

/-! ### The legal words -/

/-- The vector registers (R16). -/
def VReg.all : List VReg := [.v0, .v1, .v2, .v3]

/-- Every command with every choice of registers (R58). -/
def Instr.all : List Instr :=
  VReg.all.map .encode ++ VReg.all.map .decode ++ VReg.all.map .keygen ++
    VReg.all.flatMap fun d => VReg.all.flatMap fun a => VReg.all.map (.xor d a)

theorem VReg.mem_all (r : VReg) : r ∈ VReg.all := by cases r <;> decide

theorem Instr.mem_all (i : Instr) : i ∈ Instr.all := by
  cases i <;> simp [Instr.all, VReg.mem_all]

theorem Instr.nodup_all : Instr.all.Nodup := by decide

/-- Settles O5: the legal words are the encodings of all commands, no two of which are equal. -/
theorem seventySixLegalWords : Obligations.SeventySixLegalWords := by
  refine ⟨Instr.all.map encodeWord, rfl, Instr.nodup_all.map encodeWord_injective, fun w => ?_⟩
  simp [Instr.mem_all, decodeWord_eq_ok_iff]

/-! ### The assembler value -/

@[simp] theorem VReg.toNat_bits (r : VReg) : r.bits.toNat = Machine.VReg.index r := by cases r <;> rfl

/-- The value of a packed word: the sum of its fields, each with the weight of its lowest bit (R56). -/
theorem packFields_eq_ofNat (op : BitVec 4) (vd va vb : BitVec 2) (rsv : BitVec 22) :
    packFields op vd va vb rsv =
      BitVec.ofNat 32 (op.toNat + vd.toNat * 16 + va.toNat * 64 + vb.toNat * 256 + rsv.toNat * 1024) := by
  have hsum : (packFields op vd va vb rsv).toNat =
      op.toNat + vd.toNat * 16 + va.toNat * 64 + vb.toNat * 256 + rsv.toNat * 1024 := by
    simp only [packFields, Machine.toNat_append_eq_add]
    ring
  rw [← hsum, BitVec.ofNat_toNat, BitVec.setWidth_eq]

/-- Settles O2: the value of a word is the sum of its fields, each with the weight of its lowest bit. -/
theorem assemblerValue : Obligations.AssemblerValue := by
  intro d a b
  simp [encodeWord, packFields_eq_ofNat]

end Sys2Proof
end

section
/-! PROOFS. The host's jumps and its HALT (spec/30_encoding.md R64; spec/60_exceptions.md R140). -/

namespace Sys2Proof.Machine

/-! ### Jumps -/

/-- A jump goes to the first statement marked with its label (R64). -/
theorem State.hostGoto_of_first (s : State) (l k : Nat) (hk : s.host.prog[k]? = some (.label l))
    (hfirst : ∀ n, n < k → s.host.prog[n]? ≠ some (.label l)) :
    s.hostGoto l = .next { s with host := { s.host with pc := k } } := by
  have hfind : s.host.prog.findIdx? (fun t => decide (t = .label l)) = some k := by
    obtain ⟨hlt, hat⟩ := List.getElem?_eq_some_iff.1 hk
    refine List.findIdx?_eq_some_iff_getElem.2 ⟨hlt, by simp [hat], fun n hn => ?_⟩
    have := hfirst n hn
    rw [List.getElem?_eq_getElem (hn.trans hlt)] at this
    simpa using this
  rw [State.hostGoto, hfind]

/-- Settles O48: a jump taken is a `GOTO`; an `IF` whose condition does not hold goes on to the next statement. -/
theorem hostJumps : Obligations.HostJumps := by
  intro s l k c hr hk hfirst
  have hgoto := s.hostGoto_of_first l k hk hfirst
  refine ⟨fun hq => ?_, fun hq hc => ?_, fun hq hc => ?_⟩ <;> rw [takeTurn_host_of_stmt s _ hr hq, State.hostStmt]
  · exact hgoto
  · rw [if_pos hc, hgoto]
  · rw [if_neg (by simp [hc]), State.hostAdvance]

/-! ### HALT with a command in flight -/

theorem engineTurn_host (s t : State) (h : engineTurn s = .next t) : t.host = s.host := by
  obtain ⟨-, rfl⟩ | ⟨-, -, rfl⟩ | ⟨-, i, -, hi⟩ := engineTurn_cases s t h
  · rfl
  · rfl
  · exact (exec_outside i s t hi).host

/-- Nothing moves a host that has executed HALT: neither engine nor reset touches it (R64, R126). -/
theorem takeTurn_host_of_halted (q : Turn) (s t : State) (hs : s.host.status ≠ .running) (h : takeTurn q s = .next t) :
    t.host = s.host := by
  obtain ⟨-, hh⟩ | ⟨-, he⟩ | ⟨taken, -, rfl⟩ := takeTurn_cases q s t h
  · rw [hostTurn_halted s hs] at hh
    injection hh with hh
    rw [hh]
  · exact engineTurn_host s t he
  · rfl

theorem step_host_of_halted (s t : State) (hs : s.host.status ≠ .running) (h : step s = .next t) : t.host = s.host := by
  cases hf : s.final with
  | true =>
    rw [step_of_final s hf] at h
    injection h with h
    rw [h]
  | false =>
    obtain ⟨q, ts, hq⟩ := step_eq_takeTurn s hf
    exact takeTurn_host_of_halted q { s with sched := ts } t hs (hq ▸ h)

/-- What every step keeps, every run keeps. -/
theorem runSteps_induction (P : State → Prop) (hstep : ∀ s t, P s → step s = .next t → P t) (n : Nat) (s t : State)
    (hs : P s) (h : runSteps n s = .next t) : P t := by
  induction n generalizing s with
  | zero =>
    injection h with h
    exact h ▸ hs
  | succ n ih =>
    cases hu : step s with
    | next u => exact ih u (hstep s u hs hu) (runSteps_succ n s u hu ▸ h)
    | fault f => rw [runSteps, hu] at h; exact nomatch h
    | refused r => rw [runSteps, hu] at h; exact nomatch h

/-- Settles O50: HALT records that BUSY was 1, no step takes that back, and a final state has another record. -/
theorem haltInFlightNeverFinal : Obligations.HaltInFlightNeverFinal := by
  refine ⟨fun s hr hq hb => ?_, fun n s t hs h => ?_⟩
  · rw [takeTurn_host_of_stmt s _ hr hq, State.hostStmt]
    exact ⟨_, rfl, by simp [hb]⟩
  · have ht : t.host.status = .haltedInFlight := by
      refine runSteps_induction (fun u => u.host.status = .haltedInFlight) (fun u v hu hv => ?_) n s t hs h
      rw [step_host_of_halted u v (by simp [hu]) hv, hu]
    simp [State.final, ht]

end Sys2Proof.Machine
end

section
/-! PROOFS. ENCODE and DECODE (spec/40_codec.md R72 to R79): the words of their opcodes, their outcomes, and that each
undoes the other; and the commands that clear a register (R139). -/

namespace Sys2Proof.Machine

/-! ### The words of the two opcodes -/

/-- A word of an opcode that uses VD alone, ENCODE or KEYGEN, is illegal with another field set (R60). -/
theorem exists_decodeWord_error_of_only_vd (w : Word) (hop : fieldOp w = 1 ∨ fieldOp w = 3)
    (h : fieldVa w ≠ 0 ∨ fieldVb w ≠ 0 ∨ fieldRsv w ≠ 0) : ∃ e, decodeWord w = .error e := by
  obtain hva | hvb | hrsv := h
  · exact (illegalWords w).2 (.inr (.inr (.inl ⟨hop, .inl hva⟩)))
  · exact (illegalWords w).2 (.inr (.inr (.inl ⟨hop, .inr hvb⟩)))
  · exact (illegalWords w).2 (.inr (.inl ((exists_reserved_bit_iff w).2 hrsv)))

/-- A word of the opcode that uses VA alone, DECODE, is illegal with another field set (R60). -/
theorem exists_decodeWord_error_of_only_va (w : Word) (hop : fieldOp w = 2)
    (h : fieldVd w ≠ 0 ∨ fieldVb w ≠ 0 ∨ fieldRsv w ≠ 0) : ∃ e, decodeWord w = .error e := by
  obtain hvd | hvb | hrsv := h
  · exact (illegalWords w).2 (.inr (.inr (.inr ⟨hop, .inl hvd⟩)))
  · exact (illegalWords w).2 (.inr (.inr (.inr ⟨hop, .inr hvb⟩)))
  · exact (illegalWords w).2 (.inr (.inl ((exists_reserved_bit_iff w).2 hrsv)))

theorem encodeWord_encode (d : VReg) : encodeWord (.encode d) = 0x1 ||| d.bits.setWidth 32 <<< 4 := by
  cases d <;> decide

theorem encodeWord_decode (a : VReg) : encodeWord (.decode a) = 0x2 ||| a.bits.setWidth 32 <<< 6 := by
  cases a <;> decide

/-! ### What a successful ENCODE leaves -/

/-- A length within capacity fits a length register (R5). -/
theorem toNat_ofNat_of_le_nmax {c : Config} (hc : c.Legal) (L : Nat) (h : L ≤ c.nmax) :
    (BitVec.ofNat 32 L).toNat = L := by
  obtain ⟨-, -, hmax, -⟩ := hc
  rw [BitVec.toNat_ofNat, Nat.mod_eq_of_lt (by omega)]

/-- `t` is `s` after a successful ENCODE Vd (R72, R75). -/
structure State.Encoded (s t : State) (d : VReg) : Prop where
  completed : t.Completed .none 0
  cfg : t.cfg = s.cfg
  vlen : (t.vlen d).toNat = 8 * s.tlen.toNat
  vbit : ∀ j k, j < s.tlen.toNat → k < 8 → t.vbit d (8 * j + k) = bits8 (s.text j) k
  vbit_above : ∀ i, 8 * s.tlen.toNat ≤ i → i < s.cfg.nmax → t.vbit d i = false

theorem State.encoded_writeSeq (s : State) (d : VReg) (hc : s.cfg.Legal) (hn : s.tlen.toNat ≤ tmaxOf s.cfg) :
    s.Encoded (s.writeSeq d (8 * s.tlenNat) s.encodeBit).complete d := by
  have hcap : 8 * s.tlen.toNat ≤ s.cfg.nmax := by
    rw [← eight_mul_tmaxOf hc]
    omega
  refine ⟨⟨rfl, rfl, rfl, rfl⟩, by simp, ?_, fun j k hj hk => ?_, fun i hi hmax => ?_⟩
  · rw [State.complete_vlen, State.writeSeq_vlen, if_pos rfl, State.tlenNat, toNat_ofNat_of_le_nmax hc _ hcap]
  · rw [State.complete_vbit, s.vbit_writeSeq hc d _ _ _ (by omega), State.tlenNat, decide_eq_true (by omega),
      Bool.true_and, State.encodeBit, show (8 * j + k) / 8 = j by omega, show (8 * j + k) % 8 = k by omega]
  · rw [State.complete_vbit, s.vbit_writeSeq hc d _ _ i hmax, State.tlenNat, decide_eq_false (by omega), Bool.false_and]

theorem exec_encode_encoded (s : State) (d : VReg) (hc : s.cfg.Legal) (hn : s.tlen.toNat ≤ tmaxOf s.cfg)
    (hb : ∀ j, j < s.tlen.toNat → (s.text j).toNat ≤ 255) : ∃ t, exec (.encode d) s = .next t ∧ s.Encoded t d :=
  ⟨_, execEncode_success d s hn hb, s.encoded_writeSeq d hc hn⟩

/-- The issue of ENCODE reaches no operand of it. -/
theorem runCommand_encode_encoded (s : State) (d : VReg) (hc : s.cfg.Legal) (hn : s.tlen.toNat ≤ tmaxOf s.cfg)
    (hb : ∀ j, j < s.tlen.toNat → (s.text j).toNat ≤ 255) :
    ∃ t, runCommand (.encode d) s = .next t ∧ s.Encoded t d := by
  obtain ⟨t, ht, henc⟩ := exec_encode_encoded (s.issue (encodeWord (.encode d))) d hc hn hb
  exact ⟨t, ht, henc.completed, henc.cfg, henc.vlen, henc.vbit, henc.vbit_above⟩

/-- ERR = 0 tells a successful ENCODE from a failed one (R109). -/
theorem exec_encode_encoded_of_err (s t : State) (d : VReg) (hc : s.cfg.Legal) (h : exec (.encode d) s = .next t)
    (herr : t.err = 0) : s.Encoded t d := by
  obtain ⟨-, rfl⟩ | ⟨-, j, -, rfl⟩ | ⟨hn, -, rfl⟩ := execEncode_cases d s t h
  · exact nomatch herr
  · exact nomatch herr
  · exact s.encoded_writeSeq d hc hn

/-! ### What a successful DECODE leaves -/

/-- `t` is `s` after a successful DECODE Va (R74, R75). -/
structure State.Decoded (s t : State) (a : VReg) : Prop where
  completed : t.Completed .none 0
  cfg : t.cfg = s.cfg
  tlen : t.tlen.toNat = (s.vlen a).toNat / 8
  text : ∀ j, j < (s.vlen a).toNat / 8 → t.text j = s.decodeWordAt a j
  text_above : ∀ j, (s.vlen a).toNat / 8 ≤ j → j < tmaxOf s.cfg → t.text j = 0
  vlen : t.vlen a = s.vlen a
  vbit : ∀ i, i < s.cfg.nmax → t.vbit a i = s.vbit a i

theorem State.decoded_writeText (s : State) (a : VReg) (hc : s.cfg.Legal) (hn : (s.vlen a).toNat ≤ s.cfg.nmax) :
    s.Decoded (s.writeText (s.vlenNat a / 8) (s.decodeWordAt a)).complete a := by
  have hcap : (s.vlen a).toNat / 8 ≤ tmaxOf s.cfg := Nat.div_le_div_right hn
  refine ⟨⟨rfl, rfl, rfl, rfl⟩, rfl, ?_, fun j hj => ?_, fun j hj hmax => ?_, by simp, fun i hi => ?_⟩
  · rw [State.complete_tlen, State.writeText_tlen, State.vlenNat, toNat_ofNat_of_le_nmax hc _ (by omega)]
  · rw [State.complete_text, s.text_writeText _ _ j (by omega), State.vlenNat, if_pos hj]
  · rw [State.complete_text, s.text_writeText _ _ j hmax, State.vlenNat, if_neg (by omega)]
  · rw [State.complete_vbit, s.vbit_writeText hc _ _ a i hi]

theorem exec_decode_decoded (s : State) (a : VReg) (hc : s.cfg.Legal) (hn : (s.vlen a).toNat ≤ s.cfg.nmax)
    (h8 : (s.vlen a).toNat % 8 = 0) : ∃ t, exec (.decode a) s = .next t ∧ s.Decoded t a :=
  ⟨_, execDecode_success a s hn h8, s.decoded_writeText a hc hn⟩

/-- The issue of DECODE reaches no operand of it. -/
theorem runCommand_decode_decoded (s : State) (a : VReg) (hc : s.cfg.Legal) (hn : (s.vlen a).toNat ≤ s.cfg.nmax)
    (h8 : (s.vlen a).toNat % 8 = 0) : ∃ t, runCommand (.decode a) s = .next t ∧ s.Decoded t a := by
  have hv := s.issue_vlen (encodeWord (.decode a)) a
  obtain ⟨t, ht, hdec⟩ := exec_decode_decoded (s.issue (encodeWord (.decode a))) a hc (hv ▸ hn) (hv ▸ h8)
  exact ⟨t, ht, hdec.completed, hdec.cfg, hv ▸ hdec.tlen, hv ▸ hdec.text, hv ▸ hdec.text_above,
    hv ▸ hdec.vlen, hdec.vbit⟩

/-- ERR = 0 tells a successful DECODE from a failed one (R109). -/
theorem exec_decode_decoded_of_err (s t : State) (a : VReg) (hc : s.cfg.Legal) (h : exec (.decode a) s = .next t)
    (herr : t.err = 0) : s.Decoded t a := by
  obtain ⟨-, rfl⟩ | ⟨-, -, rfl⟩ | ⟨hn, -, rfl⟩ := execDecode_cases a s t h
  · exact nomatch herr
  · exact nomatch herr
  · exact s.decoded_writeText a hc hn

/-! ### Characters and their groups -/

theorem State.toNat_decodeWordAt_lt (s : State) (a : VReg) (j : Nat) : (s.decodeWordAt a j).toNat < 256 := by
  rw [State.decodeWordAt, BitVec.toNat_setWidth]
  exact Nat.lt_of_le_of_lt (Nat.mod_le _ _) (BitVec.isLt _)

/-- The group of a decoded character is the one it was decoded from (R11). -/
theorem State.bits8_decodeWordAt (s : State) (a : VReg) (j k : Nat) (hk : k < 8) :
    bits8 (s.decodeWordAt a j) k = s.vbit a (8 * j + k) :=
  bits8_val8 _ k hk

/-- A group that holds a legal character decodes to it (R11). -/
theorem State.decodeWordAt_of_bits8 (s : State) (a : VReg) (j : Nat) (c : Word) (hc : c.toNat ≤ 255)
    (h : ∀ k, k < 8 → s.vbit a (8 * j + k) = bits8 c k) : s.decodeWordAt a j = c := by
  rw [State.decodeWordAt, val8_congr _ _ h, val8_bits8, setWidth_setWidth_of_le_255 c hc]

/-! ### The codec -/

/-- Settles O20: the outcomes by their conditions, the result by what a successful ENCODE leaves. -/
theorem encodeEffect : Obligations.EncodeEffect := by
  intro s d hc
  refine ⟨?_, fun w hop => exists_decodeWord_error_of_only_vd w (.inl hop), fun h => ?_,
    fun j hn hj hbad hlow => ?_, fun hn hb => ?_⟩
  · rw [decodeWord_eq_ok_iff, encodeWord_encode]
  · exact ⟨_, execEncode_capacity d s h, s.failedWith_fail _ _⟩
  · exact ⟨_, execEncode_encoding d s hn j ((s.firstBad_eq_some j).2 ⟨hj, hbad, hlow⟩), s.failedWith_fail _ _⟩
  · obtain ⟨t, ht, henc⟩ := exec_encode_encoded s d hc hn hb
    exact ⟨t, ht, henc.completed, henc.vlen, henc.vbit, henc.vbit_above⟩

/-- Settles O22: the outcomes by their conditions, the result by what a successful DECODE leaves. -/
theorem decodeEffect : Obligations.DecodeEffect := by
  intro s a hc
  refine ⟨?_, exists_decodeWord_error_of_only_va, fun h => ?_, fun hn h8 => ?_, fun hn h8 => ?_⟩
  · rw [decodeWord_eq_ok_iff, encodeWord_decode]
  · exact ⟨_, execDecode_capacity a s h, s.failedWith_fail _ _⟩
  · exact ⟨_, execDecode_decoding a s hn h8, s.failedWith_fail _ _⟩
  · obtain ⟨t, ht, hdec⟩ := exec_decode_decoded s a hc hn h8
    refine ⟨t, ht, hdec.completed, hdec.tlen, fun j hj => ?_, hdec.text_above, hdec.vlen, hdec.vbit⟩
    rw [hdec.text j hj]
    exact ⟨s.toNat_decodeWordAt_lt a j, s.bits8_decodeWordAt a j⟩

/-- Settles O24: DECODE finds in each group the character that ENCODE put there. -/
theorem textRoundTrip : Obligations.TextRoundTrip := by
  intro s r hc hn hb
  obtain ⟨s1, h1, henc⟩ := runCommand_encode_encoded s r hc hn hb
  have hvlen := henc.vlen
  have hcap : (s1.vlen r).toNat ≤ s1.cfg.nmax := by
    rw [hvlen, henc.cfg, ← eight_mul_tmaxOf hc]
    omega
  obtain ⟨s2, h2, hdec⟩ := runCommand_decode_decoded s1 r (henc.cfg ▸ hc) hcap (by omega)
  have hlen : (s1.vlen r).toNat / 8 = s.tlen.toNat := by omega
  have htlen : s2.tlen = s.tlen := BitVec.eq_of_toNat_eq (hdec.tlen.trans hlen)
  have htext : ∀ j, j < s.tlen.toNat → s2.text j = s.text j := fun j hj => by
    rw [hdec.text j (by omega)]
    exact s1.decodeWordAt_of_bits8 r j _ (hb j hj) (fun k hk => henc.vbit j k hj hk)
  refine ⟨s1, s2, h1, h2, hdec.completed.err, htlen, ?_, htext, fun j hj hmax => ?_⟩
  · rw [State.textSeq, State.textSeq, State.tlenNat, State.tlenNat, htlen]
    exact List.map_congr_left fun j hj => htext j (List.mem_range.1 hj)
  · exact hdec.text_above j (by omega) (henc.cfg ▸ hmax)

/-- Settles O25: DECODE leaves legal characters, and ENCODE writes back the group of each. -/
theorem bitsRoundTrip : Obligations.BitsRoundTrip := by
  intro s r hc hn h8
  obtain ⟨s1, h1, hdec⟩ := runCommand_decode_decoded s r hc hn h8
  have htlen := hdec.tlen
  have hcap : s1.tlen.toNat ≤ tmaxOf s1.cfg := by
    rw [htlen, hdec.cfg]
    exact Nat.div_le_div_right hn
  have hlegal : ∀ j, j < s1.tlen.toNat → (s1.text j).toNat ≤ 255 := fun j hj => by
    rw [hdec.text j (by omega)]
    exact Nat.le_of_lt_succ (s.toNat_decodeWordAt_lt r j)
  obtain ⟨s2, h2, henc⟩ := runCommand_encode_encoded s1 r (hdec.cfg ▸ hc) hcap hlegal
  have hlen : 8 * s1.tlen.toNat = (s.vlen r).toNat := by omega
  refine ⟨s1, s2, h1, h2, henc.completed.err, BitVec.eq_of_toNat_eq (henc.vlen.trans hlen), fun i hi => ?_,
    fun i hi hmax => ?_⟩
  · calc s2.vbit r i = s2.vbit r (8 * (i / 8) + i % 8) := by rw [Nat.div_add_mod]
      _ = bits8 (s1.text (i / 8)) (i % 8) := henc.vbit _ _ (by omega) (by omega)
      _ = bits8 (s.decodeWordAt r (i / 8)) (i % 8) := by rw [hdec.text _ (by omega)]
      _ = s.vbit r (8 * (i / 8) + i % 8) := s.bits8_decodeWordAt r _ _ (by omega)
      _ = s.vbit r i := by rw [Nat.div_add_mod]
  · exact henc.vbit_above i (by omega) (hdec.cfg ▸ hmax)

/-- Settles O26: the lengths a successful ENCODE and a successful DECODE leave. -/
theorem codecLengthLaw : Obligations.CodecLengthLaw := by
  refine fun s t r hc => ⟨fun h herr => ?_, fun h herr => (exec_decode_decoded_of_err s t r hc h herr).tlen⟩
  have hvlen := (exec_encode_encoded_of_err s t r hc h herr).vlen
  exact ⟨hvlen, by omega⟩

/-! ### Clearing a register -/

/-- A draw of no bits is delivered by every source and consumes nothing of it (R88). -/
theorem EntropySource.draw_zero {c : Config} (hc : c.Legal) (src : EntropySource) : src.draw c 0 = some ([], src) := by
  obtain ⟨-, -, -, hw, -⟩ := hc
  cases src with
  | live pos => rfl
  | stream beats =>
    have hbeats : beatsFor c 0 = 0 := Nat.div_eq_of_lt (by omega)
    exact (EntropySource.draw_eq_some _ _ _ _ _).2 (.inr ⟨beats, rfl, by simp [hbeats], rfl, by simp [hbeats]⟩)

/-- Settles O32: KEYGEN writes a draw of no bits, and ENCODE no characters; the zeros above are the whole register. -/
theorem keyResidueCleared : Obligations.KeyResidueCleared := by
  refine fun s r hc => ⟨fun harg => ?_, fun htlen => ?_⟩
  · have hlen : s.argNat = 0 := by simp [State.argNat, harg]
    refine ⟨_, execKeygen_success r s (by omega) [] s.source (hlen ▸ s.source.draw_zero hc), ?_, by simp, rfl,
      fun i hi => ?_⟩
    · exact s.writeDraw_err r []
    · rw [State.setSource_vbit, s.vbit_writeDraw hc r [] i hi, List.getD_nil]
  · have hlen : s.tlen.toNat = 0 := by simp [htlen]
    obtain ⟨t, ht, henc⟩ := exec_encode_encoded s r hc (by omega) (fun j hj => by omega)
    have hvlen : (t.vlen r).toNat = 0 := by rw [henc.vlen, hlen]
    exact ⟨t, ht, henc.completed.err, BitVec.eq_of_toNat_eq hvlen, fun i hi => henc.vbit_above i (by omega) hi⟩

end Sys2Proof.Machine
end

section
/-! PROOFS. KEYGEN (spec/41_keygen.md R81 to R88): the draw that a stream of beats makes, the result and the outcomes, and
that a command in flight completes in the engine's step (R87, R107, R138). -/

namespace Sys2Proof.Machine

theorem encodeWord_keygen (d : VReg) : encodeWord (.keygen d) = 0x3 ||| d.bits.setWidth 32 <<< 4 := by
  cases d <;> decide

/-! ### The draw of a stream of beats -/

/-- ceil(L / ENT_W) exceeds n exactly when n beats hold fewer than L bits (R83). -/
theorem lt_beatsFor_iff {c : Config} (hc : c.Legal) (n L : Nat) : n < beatsFor c L ↔ n * c.entW < L := by
  obtain ⟨-, -, -, hw, -⟩ := hc
  rw [beatsFor, Nat.lt_iff_add_one_le, Nat.le_div_iff_mul_le (by omega), Nat.add_one_mul]
  omega

theorem div_entW_lt_beatsFor {c : Config} (hc : c.Legal) {i L : Nat} (hi : i < L) : i / c.entW < beatsFor c L :=
  (lt_beatsFor_iff hc _ _).2 (Nat.lt_of_le_of_lt (Nat.div_mul_le_self i c.entW) hi)

/-- A stream with the beats for L bits delivers R83's bits of them, and keeps the beats after those (R85). -/
theorem EntropySource.draw_stream (c : Config) (L : Nat) (beats : List Word) (h : beatsFor c L ≤ beats.length) :
    EntropySource.draw c L (.stream beats) =
      some ((List.range L).map (drawBit c beats), .stream (beats.drop (beatsFor c L))) :=
  (EntropySource.draw_eq_some _ _ _ _ _).2 (.inr ⟨beats, rfl, h, rfl, rfl⟩)

/-- The bits of a draw after n beats are those of the stream from beat n on (R83). -/
theorem drawBit_drop (c : Config) (beats : List Word) (n i : Nat) :
    drawBit c (beats.drop n) i = (beats.getD (n + i / c.entW) 0).getLsbD (c.entW - 1 - i % c.entW) := by
  rw [drawBit, List.getD_eq_getElem?_getD, List.getElem?_drop, ← List.getD_eq_getElem?_getD]

/-- The beat that carries the bits k * ENT_W, …, k * ENT_W + ENT_W - 1 of a key, the first of them at bit ENT_W - 1. -/
def packBeat (c : Config) (e : List Bool) (k : Nat) : Word :=
  BitVec.ofFnLE fun b => e.getD (k * c.entW + (c.entW - 1 - b)) false

/-- The beats that R83 makes a given key of. -/
def packBeats (c : Config) (e : List Bool) : List Word := (List.range (beatsFor c e.length)).map (packBeat c e)

theorem getLsbD_packBeat {c : Config} (hc : c.Legal) (e : List Bool) (i : Nat) :
    (packBeat c e (i / c.entW)).getLsbD (c.entW - 1 - i % c.entW) = e.getD i false := by
  obtain ⟨-, -, -, hw, hmax⟩ := hc
  have hmod : i % c.entW < c.entW := Nat.mod_lt _ hw
  have hbit : i / c.entW * c.entW + (c.entW - 1 - (c.entW - 1 - i % c.entW)) = i := by
    rw [show c.entW - 1 - (c.entW - 1 - i % c.entW) = i % c.entW by omega, Nat.div_add_mod']
  rw [BitVec.getLsbD_eq_getElem (show c.entW - 1 - i % c.entW < 32 by omega), packBeat, BitVec.getElem_ofFnLE, hbit]

theorem drawBit_packBeats {c : Config} (hc : c.Legal) (e : List Bool) (i : Nat) (hi : i < e.length) :
    drawBit c (packBeats c e) i = e.getD i false := by
  have hbeat : (packBeats c e).getD (i / c.entW) 0 = packBeat c e (i / c.entW) := by
    simp [packBeats, div_entW_lt_beatsFor hc hi]
  rw [drawBit, hbeat, getLsbD_packBeat hc]

/-- Of its packed beats a key is the draw (R82, R83). -/
theorem EntropySource.draw_packBeats {c : Config} (hc : c.Legal) (e : List Bool) :
    EntropySource.draw c e.length (.stream (packBeats c e)) =
      some (e, .stream ((packBeats c e).drop (beatsFor c e.length))) := by
  have hkey : (List.range e.length).map (drawBit c (packBeats c e)) = e := by
    refine List.ext_getElem (by simp) fun i hi hi' => ?_
    rw [List.getElem_map, List.getElem_range, drawBit_packBeats hc e i hi', List.getD_eq_getElem _ _ hi']
  rw [EntropySource.draw_stream _ _ _ (by simp [packBeats]), hkey]

/-! ### The outcomes of KEYGEN -/

theorem execKeygen_capacity (d : VReg) (s : State) (h : s.cfg.nmax < s.argNat) :
    execKeygen d s = .next (s.fail .capacity 0) := by
  rw [execKeygen, if_pos h]

/-- A draw that the source has not delivered leaves KEYGEN in flight (R87). -/
theorem execKeygen_waits (d : VReg) (s : State) (h : s.argNat ≤ s.cfg.nmax)
    (hdraw : s.source.draw s.cfg s.argNat = none) : execKeygen d s = .next s := by
  rw [execKeygen, if_neg (by omega), hdraw]

/-- `t` is `s` after a successful KEYGEN Vd with the draw `e`, which left the source `src` (R81). -/
structure State.Keyed (s t : State) (d : VReg) (e : List Bool) (src : EntropySource) : Prop where
  completed : t.Completed .none 0
  cfg : t.cfg = s.cfg
  arg : t.arg = s.arg
  length : e.length = s.arg.toNat
  vlen : t.vlen d = s.arg
  vbit : ∀ i, i < s.cfg.nmax → t.vbit d i = e.getD i false
  source : t.source = src

theorem exec_keygen_keyed (s : State) (d : VReg) (hc : s.cfg.Legal) (hn : s.arg.toNat ≤ s.cfg.nmax) (e : List Bool)
    (src : EntropySource) (hdraw : s.source.draw s.cfg s.arg.toNat = some (e, src)) :
    ∃ t, exec (.keygen d) s = .next t ∧ s.Keyed t d e src := by
  have hlen : e.length = s.arg.toNat := EntropySource.length_draw _ _ _ _ _ hdraw
  refine ⟨_, execKeygen_success d s hn e src hdraw, ⟨by simp, by simp, by simp, by simp⟩, by simp, by simp, hlen, ?_,
    fun i hi => ?_, by simp⟩
  · rw [State.setSource_vlen, State.writeDraw_vlen, if_pos rfl, hlen, BitVec.ofNat_toNat, BitVec.setWidth_eq]
  · rw [State.setSource_vbit, s.vbit_writeDraw hc d e i hi]

/-- The issue of KEYGEN reaches neither ARG nor the source. -/
theorem runCommand_keygen_keyed (s : State) (d : VReg) (hc : s.cfg.Legal) (hn : s.arg.toNat ≤ s.cfg.nmax) (e : List Bool)
    (src : EntropySource) (hdraw : s.source.draw s.cfg s.arg.toNat = some (e, src)) :
    ∃ t, runCommand (.keygen d) s = .next t ∧ s.Keyed t d e src := by
  obtain ⟨t, ht, hkey⟩ := exec_keygen_keyed (s.issue (encodeWord (.keygen d))) d hc hn e src hdraw
  exact ⟨t, ht, hkey.completed, hkey.cfg, hkey.arg, hkey.length, hkey.vlen, hkey.vbit, hkey.source⟩

/-- The draw is the key (R81). -/
theorem State.Keyed.seq {s t : State} {d : VReg} {e : List Bool} {src : EntropySource} (h : s.Keyed t d e src)
    (hn : s.arg.toNat ≤ s.cfg.nmax) : t.seq d = e := by
  have hlen : (t.seq d).length = e.length := by rw [t.length_seq, State.vlenNat, h.vlen, h.length]
  refine List.ext_getElem hlen fun i hi hi' => ?_
  have hlt : i < s.cfg.nmax := Nat.lt_of_lt_of_le (h.length ▸ hi') hn
  rw [t.getElem_seq, h.vbit i hlt, List.getD_eq_getElem _ _ hi']

/-- Zeros stand above the key (R81). -/
theorem State.Keyed.vbit_above {s t : State} {d : VReg} {e : List Bool} {src : EntropySource} (h : s.Keyed t d e src)
    (i : Nat) (hi : s.arg.toNat ≤ i) (hmax : i < s.cfg.nmax) : t.vbit d i = false := by
  rw [h.vbit i hmax, List.getD_eq_default _ _ (h.length ▸ hi)]

/-- KEYGEN from a stream with the beats it needs: R83's bits, and the beats it leaves (R85). -/
theorem runCommand_keygen_stream (s : State) (d : VReg) (beats : List Word) (hc : s.cfg.Legal)
    (hs : s.source = .stream beats) (hn : s.arg.toNat ≤ s.cfg.nmax) (hb : beatsFor s.cfg s.arg.toNat ≤ beats.length) :
    ∃ t, runCommand (.keygen d) s = .next t ∧ t.err = 0 ∧ t.cfg = s.cfg ∧ t.vlen d = s.arg ∧
      (∀ i, i < s.arg.toNat → t.vbit d i = drawBit s.cfg beats i) ∧
      t.source = .stream (beats.drop (beatsFor s.cfg s.arg.toNat)) := by
  obtain ⟨t, ht, hkey⟩ := runCommand_keygen_keyed s d hc hn _ _ (hs ▸ EntropySource.draw_stream _ _ beats hb)
  refine ⟨t, ht, hkey.completed.err, hkey.cfg, hkey.vlen, fun i hi => ?_, hkey.source⟩
  rw [hkey.vbit i (by omega)]
  simp [hi]

/-! ### The KeyGenerator -/

/-- Settles O27: the outcomes by their conditions, the result by what a successful KEYGEN leaves, the draw by R83. -/
theorem keygenEffect : Obligations.KeygenEffect := by
  intro s d hc
  refine ⟨?_, fun w hop => exists_decodeWord_error_of_only_vd w (.inr hop), fun h => ?_, fun e src hn hdraw => ?_,
    fun beats hs hb => ?_⟩
  · rw [decodeWord_eq_ok_iff, encodeWord_keygen]
  · exact ⟨_, execKeygen_capacity d s h, s.failedWith_fail _ _⟩
  · obtain ⟨t, ht, hkey⟩ := exec_keygen_keyed s d hc hn e src hdraw
    exact ⟨t, ht, hkey.completed, hkey.vlen, hkey.arg, hkey.length, hkey.seq hn, hkey.vbit_above, hkey.source⟩
  · exact ⟨_, hs ▸ EntropySource.draw_stream s.cfg _ beats hb, fun i hi => by simp [hi, drawBit]⟩

/-- Settles O29: beats of fewer bits than ARG are too few beats. -/
theorem keygenWaits : Obligations.KeygenWaits := by
  intro s d beats hc hn hs hb
  have hfew : beats.length < beatsFor s.cfg s.arg.toNat := (lt_beatsFor_iff hc _ _).2 hb
  exact execKeygen_waits d s hn ((EntropySource.draw_eq_none _ _ _).2 ⟨beats, hs, hfew⟩)

/-- Settles O30: the beats are the key's own, packed as R83 reads them. -/
theorem keygenAdmitsEveryDraw : Obligations.KeygenAdmitsEveryDraw := by
  intro s d e hc hn he
  obtain ⟨t, ht, hkey⟩ := exec_keygen_keyed { s with source := .stream (packBeats s.cfg e) } d hc hn e _
    (he ▸ EntropySource.draw_packBeats hc e)
  exact ⟨packBeats s.cfg e, t, ht, hkey.completed.err, hkey.seq hn⟩

/-- Settles O31: the second KEYGEN draws from the stream that the first has left. -/
theorem keygenSegmentsDisjoint : Obligations.KeygenSegmentsDisjoint := by
  rintro s d d' l beats _ _ hc hs hn hl rfl rfl hb
  obtain ⟨s1, h1, herr1, hcfg, hvlen1, hbits1, hsrc1⟩ := runCommand_keygen_stream s d beats hc hs hn
    (Nat.le_trans (Nat.le_add_right _ _) hb)
  have hrest : beatsFor s.cfg l.toNat ≤ (beats.drop (beatsFor s.cfg s.arg.toNat)).length := by
    rw [List.length_drop]
    exact Nat.le_sub_of_add_le' hb
  obtain ⟨s2, h2, herr2, -, hvlen2, hbits2, hsrc2⟩ := runCommand_keygen_stream { s1 with arg := l } d' _ (hcfg ▸ hc) hsrc1
    (hcfg ▸ hl) (hcfg ▸ hrest)
  refine ⟨s1, s2, h1, h2, herr1, herr2, hvlen1, hvlen2, hbits1, fun i hi => ?_, hsrc1, ?_⟩
  · rw [hbits2 i hi, hcfg, drawBit_drop, beatsFor]
  · rw [hsrc2, hcfg, List.drop_drop]
    rfl

/-! ### A command in flight -/

/-- If the command in CMD is a KEYGEN within capacity, the source has delivered its draw (R87). -/
def State.DrawDelivered (s : State) : Prop :=
  ∀ d, decodeWord s.cmd = .ok (.keygen d) → s.arg.toNat ≤ s.cfg.nmax → (s.source.draw s.cfg s.arg.toNat).isSome = true

/-- A KEYGEN in flight is one that CMD decodes to, within capacity. -/
theorem State.keygenInFlight_iff (s : State) :
    s.keygenInFlight = true ↔
      s.busy = true ∧ ∃ d, decodeWord s.cmd = .ok (.keygen d) ∧ s.arg.toNat ≤ s.cfg.nmax := by
  rw [State.keygenInFlight, Bool.and_eq_true]
  refine and_congr_right fun _ => ?_
  split
  · rename_i d hd
    simp [hd]
  · rename_i hne
    simpa using fun d hd => absurd hd (hne d)

theorem State.engineReady_of_drawDelivered (s : State) (hb : s.busy = true) (hd : s.DrawDelivered) :
    s.engineReady = true := by
  rw [State.engineReady, hb, Bool.true_and, Bool.or_eq_true, Bool.not_eq_true']
  cases hk : s.keygenInFlight with
  | false => exact .inl rfl
  | true =>
    obtain ⟨-, d, hcmd, hn⟩ := s.keygenInFlight_iff.1 hk
    exact .inr (hd d hcmd hn)

/-- A command completes, unless it is a KEYGEN within capacity whose draw is not delivered (R87, R107). -/
theorem exec_completes (i : Instr) (s t : State) (h : exec i s = .next t) :
    (t.busy = false ∧ t.done = true) ∨
      ∃ d, i = .keygen d ∧ s.arg.toNat ≤ s.cfg.nmax ∧ s.source.draw s.cfg s.arg.toNat = none := by
  cases i with
  | encode d => exact .inl (execEncode_frame d s t h).2.2
  | decode a => obtain ⟨-, rfl⟩ | ⟨-, -, rfl⟩ | ⟨-, -, rfl⟩ := execDecode_cases a s t h <;> exact .inl ⟨rfl, rfl⟩
  | keygen d =>
    obtain ⟨-, rfl⟩ | ⟨hn, hnone, -⟩ | ⟨-, e, src, -, rfl⟩ := execKeygen_cases d s t h
    · exact .inl ⟨rfl, rfl⟩
    · exact .inr ⟨d, rfl, hn, hnone⟩
    · exact .inl ⟨by simp, by simp⟩
  | xor d a b => exact .inl (execXor_frame d a b s t h).2.2

/-- The engine's turn completes the command in flight, an illegal word included (R107, R111). -/
theorem engineTurn_completes (s t : State) (hb : s.busy = true) (hd : s.DrawDelivered) (h : engineTurn s = .next t) :
    t.busy = false ∧ t.done = true := by
  obtain ⟨hidle, -⟩ | ⟨-, -, rfl⟩ | ⟨-, i, hi, hexec⟩ := engineTurn_cases s t h
  · simp [hb] at hidle
  · exact ⟨rfl, rfl⟩
  · obtain hdone | ⟨d, rfl, hn, hnone⟩ := exec_completes i s t hexec
    · exact hdone
    · simpa [hnone] using hd d hi hn

/-- With a command in flight no state is final (R140). -/
theorem State.final_eq_false_of_busy (s : State) (hb : s.busy = true) : s.final = false := by simp [State.final, hb]

/-- With no turn fixed and the engine's step enabled, the step is the engine's. -/
theorem step_eq_engineTurn (s : State) (hready : s.engineReady = true) (hb : s.busy = true) (hsched : s.sched = []) :
    step s = engineTurn s := by
  simp [step, nextStep, s.final_eq_false_of_busy hb, hsched, State.defaultTurn, hready, takeTurn]

/-- A host's turn with a command in flight is used up and changes the host alone (R45). -/
theorem step_host_of_busy (s t : State) (ts : List Turn) (hb : s.busy = true) (hsched : s.sched = .host :: ts)
    (h : step s = .next t) : t = { s with host := t.host, sched := ts } := by
  have hturn : takeTurn .host { s with sched := ts } = .next t := by
    simpa [step, nextStep, s.final_eq_false_of_busy hb, hsched] using h
  exact (busyBlockUndisturbed { s with sched := ts } hb).2.2 t hturn

/-- The first of a run of steps that answers has answered. -/
theorem exists_step_of_runSteps_succ (n : Nat) (s u : State) (h : runSteps (n + 1) s = .next u) :
    ∃ t, step s = .next t ∧ runSteps n t = .next u := by
  cases ht : step s with
  | next t => exact ⟨t, rfl, runSteps_succ n s t ht ▸ h⟩
  | fault f => rw [runSteps, ht] at h; exact nomatch h
  | refused r => rw [runSteps, ht] at h; exact nomatch h

/-- However many turns of the host come first, they change the host alone (R45). -/
theorem runSteps_host_of_busy (k : Nat) (s u : State) (hb : s.busy = true) (hsched : s.sched = List.replicate k .host)
    (h : runSteps k s = .next u) : u = { s with host := u.host, sched := [] } := by
  induction k generalizing s with
  | zero =>
    injection h with h
    subst h
    exact congrArg (fun ts => { s with sched := ts }) hsched
  | succ k ih =>
    obtain ⟨t, ht, hu⟩ := exists_step_of_runSteps_succ k s u h
    have hts := step_host_of_busy s t _ hb hsched ht
    exact (ih t (hts ▸ hb) (hts ▸ rfl) hu).trans (hts ▸ rfl)

/-- Settles O57: after the host's turns the engine's step is enabled as it was before them, and completes the command. -/
theorem inFlightCompletes : Obligations.InFlightCompletes := by
  intro s k hb hsched hdraw u hu
  have hus := runSteps_host_of_busy k s u hb hsched hu
  have hub : u.busy = true := hus ▸ hb
  have hud : u.DrawDelivered := hus ▸ hdraw
  obtain ⟨t, ht⟩ := engineTurn_answers u
  obtain ⟨hbusy, hdone⟩ := engineTurn_completes u t hub hud ht
  refine ⟨t, ?_, hbusy, hdone, ?_, engineTurn_host u t ht⟩
  · rw [step_eq_engineTurn u (u.engineReady_of_drawDelivered hub hud) hub (hus ▸ rfl), ht]
  · rw [engineTurn_cmd u t ht, hus]

end Sys2Proof.Machine
end

section
/-! PROOFS. XOR (spec/42_combiner.md R89 to R94): the word of its opcode, its outcomes, and its laws. -/

namespace Sys2Proof.Machine

/-! ### The word of the opcode -/

/-- The fields of XOR's word, each shifted to its lowest bit (R56). -/
theorem encodeWord_xor (d a b : VReg) :
    encodeWord (.xor d a b) =
      0x4 ||| d.bits.setWidth 32 <<< 4 ||| a.bits.setWidth 32 <<< 6 ||| b.bits.setWidth 32 <<< 8 := by
  cases d <;> cases a <;> cases b <;> decide

/-! ### What a successful XOR leaves -/

/-- A register that holds what another held has its sequence (R18). -/
theorem State.seq_eq_of_vbit {s t : State} {d a : VReg} (hlen : t.vlen d = s.vlen a)
    (h : ∀ i, i < (s.vlen a).toNat → t.vbit d i = s.vbit a i) : t.seq d = s.seq a := by
  rw [State.seq, State.seq, State.vlenNat, State.vlenNat, hlen]
  exact List.map_congr_left fun i hi => h i (List.mem_range.1 hi)

/-- `t` is `s` after a successful XOR Vd, Va, Vb (R89, R90). -/
structure State.Combined (s t : State) (d a b : VReg) : Prop where
  completed : t.Completed .none 0
  cfg : t.cfg = s.cfg
  vlen : t.vlen d = s.vlen a
  vbit : ∀ i, i < (s.vlen a).toNat → t.vbit d i = (s.vbit a i ^^ s.vbit b i)
  vbit_above : ∀ i, (s.vlen a).toNat ≤ i → i < s.cfg.nmax → t.vbit d i = false
  vlen_of_ne : ∀ r, r ≠ d → t.vlen r = s.vlen r
  vbit_of_ne : ∀ r i, r ≠ d → i < s.cfg.nmax → t.vbit r i = s.vbit r i

theorem State.combined_writeSeq (s : State) (d a b : VReg) (hc : s.cfg.Legal) (hn : (s.vlen a).toNat ≤ s.cfg.nmax) :
    s.Combined (s.writeSeq d (s.vlenNat a) (s.xorBit a b)).complete d a b := by
  refine ⟨⟨rfl, rfl, rfl, rfl⟩, by simp, ?_, fun i hi => ?_, fun i hi hmax => ?_, fun r hr => by simp [hr],
    fun r i hr hi => ?_⟩
  · rw [State.complete_vlen, State.writeSeq_vlen, if_pos rfl, State.vlenNat, BitVec.ofNat_toNat, BitVec.setWidth_eq]
  · rw [State.complete_vbit, s.vbit_writeSeq hc d _ _ i (by omega), State.vlenNat, decide_eq_true hi, Bool.true_and,
      State.xorBit]
  · rw [State.complete_vbit, s.vbit_writeSeq hc d _ _ i hmax, State.vlenNat, decide_eq_false (by omega), Bool.false_and]
  · rw [State.complete_vbit, s.vbit_writeSeq_ne hc d _ _ r i hi hr]

theorem exec_xor_combined (s : State) (d a b : VReg) (hc : s.cfg.Legal) (hn : (s.vlen a).toNat ≤ s.cfg.nmax)
    (hlen : s.vlen a = s.vlen b) : ∃ t, exec (.xor d a b) s = .next t ∧ s.Combined t d a b :=
  ⟨_, execXor_success d a b s hn (congrArg BitVec.toNat hlen), s.combined_writeSeq d a b hc hn⟩

/-- The issue of XOR reaches no operand of it. -/
theorem runCommand_xor_combined (s : State) (d a b : VReg) (hc : s.cfg.Legal) (hn : (s.vlen a).toNat ≤ s.cfg.nmax)
    (hlen : s.vlen a = s.vlen b) : ∃ t, runCommand (.xor d a b) s = .next t ∧ s.Combined t d a b := by
  have hv := s.issue_vlen (encodeWord (.xor d a b))
  obtain ⟨t, ht, hxor⟩ := exec_xor_combined (s.issue (encodeWord (.xor d a b))) d a b hc (hv a ▸ hn)
    ((hv a).trans (hlen.trans (hv b).symm))
  exact ⟨t, ht, hxor.completed, hxor.cfg, hv a ▸ hxor.vlen, hv a ▸ hxor.vbit, hv a ▸ hxor.vbit_above,
    fun r hr => (hxor.vlen_of_ne r hr).trans (hv r), hxor.vbit_of_ne⟩

/-! ### The XorCombiner -/

/-- Settles O33: the outcomes by their conditions, the result by what a successful XOR leaves. -/
theorem xorEffect : Obligations.XorEffect := by
  intro s d a b hc
  refine ⟨?_, fun w _ hrsv => ?_, fun h => ?_, fun ha hb hne => ?_, fun hn hlen => ?_⟩
  · rw [decodeWord_eq_ok_iff, encodeWord_xor]
  · exact (illegalWords w).2 (.inr (.inl ((exists_reserved_bit_iff w).2 hrsv)))
  · exact ⟨_, execXor_capacity d a b s h, s.failedWith_fail _ _⟩
  · exact ⟨_, execXor_length d a b s ha hb (mt BitVec.eq_of_toNat_eq hne), s.failedWith_fail _ _⟩
  · obtain ⟨t, ht, hxor⟩ := exec_xor_combined s d a b hc hn hlen
    exact ⟨t, ht, hxor.completed, hxor.vlen, hxor.vbit, hxor.vbit_above⟩

/-- Settles O35: Vb outlives the first XOR, since d is not b, and the second cancels its bits. -/
theorem xorSelfInverse : Obligations.XorSelfInverse := by
  intro s d a b hc hlen hn hdb
  obtain ⟨s1, h1, hxor1⟩ := runCommand_xor_combined s d a b hc hn hlen
  have hlen1 : s1.vlen d = s1.vlen b := hxor1.vlen.trans (hlen.trans (hxor1.vlen_of_ne b hdb.symm).symm)
  have hn1 : (s1.vlen d).toNat ≤ s1.cfg.nmax := by rwa [hxor1.vlen, hxor1.cfg]
  obtain ⟨s2, h2, hxor2⟩ := runCommand_xor_combined s1 d d b (hxor1.cfg ▸ hc) hn1 hlen1
  refine ⟨s1, s2, h1, h2, hxor2.completed.err, State.seq_eq_of_vbit (hxor2.vlen.trans hxor1.vlen) fun i hi => ?_⟩
  calc s2.vbit d i = (s1.vbit d i ^^ s1.vbit b i) := hxor2.vbit i (hxor1.vlen ▸ hi)
    _ = ((s.vbit a i ^^ s.vbit b i) ^^ s.vbit b i) := by
      rw [hxor1.vbit i hi, hxor1.vbit_of_ne b i hdb.symm (by omega)]
    _ = s.vbit a i := by rw [Bool.xor_assoc, Bool.xor_self, Bool.xor_false]

/-- Settles O36: the laws of the exclusive-or of two bits, element by element. -/
theorem xorLaws : Obligations.XorLaws := by
  intro s d a b hc hlen hn
  obtain ⟨t, ht, hab⟩ := exec_xor_combined s d a b hc hn hlen
  obtain ⟨t', ht', hba⟩ := exec_xor_combined s d b a hc (hlen ▸ hn) hlen.symm
  obtain ⟨u, hu, haa⟩ := exec_xor_combined s d a a hc hn rfl
  have hvlen : t.vlen d = t'.vlen d := hab.vlen.trans (hlen.trans hba.vlen.symm)
  refine ⟨t, t', u, ht, ht', hu, State.seq_eq_of_vbit hvlen fun i hi => ?_,
    fun hzero => State.seq_eq_of_vbit hab.vlen fun i hi => ?_, haa.vlen, fun i hi => ?_⟩
  · rw [hba.vlen] at hi
    rw [hab.vbit i (hlen ▸ hi), hba.vbit i hi, Bool.xor_comm]
  · rw [hab.vbit i hi, hzero i (hlen ▸ hi), Bool.xor_false]
  · by_cases hL : i < (s.vlen a).toNat
    · rw [haa.vbit i hL, Bool.xor_self]
    · exact haa.vbit_above i (by omega) hi

end Sys2Proof.Machine
end

section
/-! PROOFS. The cipher sequences (spec/43_cipher_service.md R97 to R100): ENCRYPT of a legal text, the outcomes of DECRYPT,
and that DECRYPT undoes ENCRYPT. -/

namespace Sys2Proof.Machine

/-! ### What a command leaves from its issue to its completion -/

/-- Neither the issue nor the completion changes the configuration. -/
theorem runCommand_cfg {i : Instr} {s t : State} (h : runCommand i s = .next t) : t.cfg = s.cfg :=
  (exec_outside i _ t h).cfg

/-- Neither the issue nor the completion changes ARG (R81). -/
theorem runCommand_arg {i : Instr} {s t : State} (h : runCommand i s = .next t) : t.arg = s.arg :=
  (exec_outside i _ t h).arg

/-- An issue changes no operand and no storage (R106). -/
theorem State.SameButVector.of_issue {s t : State} {v : Word} {d : VReg} (h : (s.issue v).SameButVector t d) :
    s.SameButVector t d :=
  ⟨h.tlen, fun r hr => (h.vlen r hr).trans (s.issue_vlen v r), h.mem⟩

theorem State.SameButVector.vbit {s t : State} {d : VReg} (h : s.SameButVector t d) (hc : s.cfg.Legal) (r : VReg) (i : Nat)
    (hr : r ≠ d) (hi : i < s.cfg.nmax) : t.vbit r i = s.vbit r i := by
  obtain ⟨-, -, hmax, -⟩ := hc
  have hapart := vbase_apart r d hr
  have hout : ¬ inVector s.cfg d (vbase r + i / 8) := by rintro ⟨hlow, hhigh⟩; omega
  rw [State.vbit, State.vbit, h.mem _ hout]

theorem State.SameButVector.text {s t : State} {d : VReg} (h : s.SameButVector t d) (hc : s.cfg.Legal) (j : Nat) :
    t.text j = s.text j := by
  obtain ⟨-, -, hmax, -⟩ := hc
  have hbound := vbase_bounds d
  have htext : tbase = 0x80000 := rfl
  refine Memory.readWord_congr _ _ _ fun a ha _ => h.mem a ?_
  rintro ⟨hlow, hhigh⟩
  omega

theorem runCommand_encode_source {s t : State} {d : VReg} (h : runCommand (.encode d) s = .next t) :
    t.source = s.source :=
  (execEncode_frame d _ t h).2.1

theorem runCommand_xor_source {s t : State} {d a b : VReg} (h : runCommand (.xor d a b) s = .next t) :
    t.source = s.source :=
  (execXor_frame d a b _ t h).2.1

theorem runCommand_keygen_sameButVector {s t : State} {d : VReg} (h : runCommand (.keygen d) s = .next t) :
    s.SameButVector t d :=
  (execKeygen_frame d _ t h).1.of_issue

theorem runCommand_xor_sameButVector {s t : State} {d a b : VReg} (h : runCommand (.xor d a b) s = .next t) :
    s.SameButVector t d :=
  (execXor_frame d a b _ t h).1.of_issue

/-! ### ENCRYPT -/

/-- An element of the encoded text is a bit of its character (R72). -/
theorem State.Encoded.vbit_char {s t : State} {d : VReg} (h : s.Encoded t d) (i : Nat) (hi : i < 8 * s.tlen.toNat) :
    t.vbit d i = (s.text (i / 8)).getLsbD (7 - i % 8) := by
  have hbit := h.vbit (i / 8) (i % 8) (by omega) (by omega)
  rwa [Nat.div_add_mod] at hbit

theorem State.Encoded.vlen_le {s t : State} {d : VReg} (h : s.Encoded t d) (hc : s.cfg.Legal)
    (hn : s.tlen.toNat ≤ tmaxOf s.cfg) : (t.vlen d).toNat ≤ t.cfg.nmax := by
  rw [h.vlen, h.cfg, ← eight_mul_tmaxOf hc]
  omega

/-- ENCODE Vp, then KEYGEN Vk with ARG = VLENp: KEYGEN takes the draw and, since p is not k, spares Vp (R97 (a)). -/
theorem runCommand_encode_keygen (s : State) (p k : VReg) (e : List Bool) (src : EntropySource) (hc : s.cfg.Legal)
    (hpk : p ≠ k) (hn : s.tlen.toNat ≤ tmaxOf s.cfg) (hb : ∀ j, j < s.tlen.toNat → (s.text j).toNat ≤ 255)
    (hdraw : s.source.draw s.cfg (8 * s.tlen.toNat) = some (e, src)) :
    ∃ s1 s2, runCommand (.encode p) s = .next s1 ∧ runCommand (.keygen k) { s1 with arg := s1.vlen p } = .next s2 ∧
      s.Encoded s1 p ∧ State.Keyed { s1 with arg := s1.vlen p } s2 k e src ∧ s2.vlen p = s1.vlen p ∧
      ∀ i, i < (s1.vlen p).toNat → s2.vbit p i = s1.vbit p i := by
  obtain ⟨s1, h1, henc⟩ := runCommand_encode_encoded s p hc hn hb
  have hc1 : s1.cfg.Legal := henc.cfg ▸ hc
  have hcap := henc.vlen_le hc hn
  have hdraw1 : s1.source.draw s1.cfg (s1.vlen p).toNat = some (e, src) := by
    rw [runCommand_encode_source h1, henc.cfg, henc.vlen, hdraw]
  obtain ⟨s2, h2, hkey⟩ := runCommand_keygen_keyed { s1 with arg := s1.vlen p } k hc1 hcap e src hdraw1
  have hframe := runCommand_keygen_sameButVector h2
  exact ⟨s1, s2, h1, h2, henc, hkey, hframe.vlen p hpk, fun i hi =>
    hframe.vbit hc1 p i hpk (Nat.lt_of_lt_of_le hi hcap)⟩

/-- Settles O58: ENCODE and KEYGEN leave the text's bits and the draw, of one length; XOR combines them and, since c is not
k, spares Vk. -/
theorem encryptSuccess : Obligations.EncryptSuccess := by
  intro s p k c e src hc hpk hck hn hb hdraw
  obtain ⟨s1, s2, h1, h2, henc, hkey, hlenp, hbitp⟩ := runCommand_encode_keygen s p k e src hc hpk hn hb hdraw
  have hlenk : s2.vlen k = s1.vlen p := hkey.vlen
  have hcap : (s2.vlen p).toNat ≤ s2.cfg.nmax := by
    rw [hlenp, hkey.cfg]
    exact henc.vlen_le hc hn
  have hc2 : s2.cfg.Legal := hkey.cfg ▸ henc.cfg ▸ hc
  obtain ⟨s3, h3, hxor⟩ := runCommand_xor_combined s2 c p k hc2 hcap (hlenp.trans hlenk.symm)
  have hlenk3 : s3.vlen k = s1.vlen p := (hxor.vlen_of_ne k hck.symm).trans hlenk
  have hspared : ∀ r i, r ≠ c → i < (s1.vlen p).toNat → s3.vbit r i = s2.vbit r i := fun r i hr hi =>
    hxor.vbit_of_ne r i hr (Nat.lt_of_lt_of_le (hlenp ▸ hi) hcap)
  refine ⟨s1, s2, s3, h1, h2, h3, henc.completed.err, hkey.completed.err, hxor.completed.err, ?_, ?_, ?_, ?_, ?_,
    fun i hi => ⟨henc.vbit_char i hi, ?_⟩, fun hpc => ⟨?_, ?_⟩⟩
  · rw [hlenk3, henc.vlen]
  · rw [hxor.vlen, hlenp, hlenk3]
  · rw [runCommand_arg h3, hkey.arg, hlenk3]
  · calc s3.seq k = s2.seq k :=
          State.seq_eq_of_vbit (hxor.vlen_of_ne k hck.symm) fun i hi => hspared k i hck.symm (hlenk ▸ hi)
      _ = e := hkey.seq (henc.vlen_le hc hn)
  · rw [runCommand_xor_source h3, hkey.source]
  · rw [← henc.vlen] at hi
    rw [hxor.vbit i (hlenp ▸ hi), hbitp i hi, hspared k i hck.symm hi]
  · rw [hxor.vlen_of_ne p hpc, hlenp, hlenk3]
  · refine State.seq_eq_of_vbit ((hxor.vlen_of_ne p hpc).trans hlenp) fun i hi => ?_
    rw [hspared p i hpc hi, hbitp i hi]

/-! ### DECRYPT -/

theorem State.issue_vlenNat (s : State) (v : Word) (r : VReg) : (s.issue v).vlenNat r = (s.vlen r).toNat :=
  congrArg BitVec.toNat (s.issue_vlen v r)

theorem runCommand_xor_capacity (s : State) (d a b : VReg)
    (h : s.cfg.nmax < (s.vlen a).toNat ∨ s.cfg.nmax < (s.vlen b).toNat) :
    runCommand (.xor d a b) s = .next ((s.issue (encodeWord (.xor d a b))).fail .capacity 0) :=
  execXor_capacity d a b _ (by rwa [s.issue_vlenNat, s.issue_vlenNat])

theorem runCommand_xor_length (s : State) (d a b : VReg) (ha : (s.vlen a).toNat ≤ s.cfg.nmax)
    (hb : (s.vlen b).toNat ≤ s.cfg.nmax) (hne : s.vlen a ≠ s.vlen b) :
    runCommand (.xor d a b) s = .next ((s.issue (encodeWord (.xor d a b))).fail .length 0) :=
  execXor_length d a b _ (by rwa [s.issue_vlenNat]) (by rwa [s.issue_vlenNat])
    (by rw [s.issue_vlenNat, s.issue_vlenNat]; exact mt BitVec.eq_of_toNat_eq hne)

/-- DECODE of a sequence of no whole number of characters fails (R74). -/
theorem runCommand_decode_decoding (s : State) (a : VReg) (hn : (s.vlen a).toNat ≤ s.cfg.nmax)
    (h8 : (s.vlen a).toNat % 8 ≠ 0) :
    runCommand (.decode a) s = .next ((s.issue (encodeWord (.decode a))).fail .decoding 0) :=
  execDecode_decoding a _ (by rwa [s.issue_vlenNat]) (by rwa [s.issue_vlenNat])

/-- Settles O59: the outcomes of XOR by their conditions; after its success DECODE fails on a part of a character, with the
text as XOR left it, or reads the characters of the exclusive-or. -/
theorem decryptOutcome : Obligations.DecryptOutcome := by
  intro s c k p hc
  by_cases hcap : s.cfg.nmax < (s.vlen c).toNat ∨ s.cfg.nmax < (s.vlen k).toNat
  · refine ⟨_, runCommand_xor_capacity s p c k hcap, fun _ => rfl, fun hnc hnk => ?_, fun hnc hlen => ?_⟩
    · omega
    · rw [← hlen] at hcap
      omega
  obtain ⟨hnc, hnk⟩ : (s.vlen c).toNat ≤ s.cfg.nmax ∧ (s.vlen k).toNat ≤ s.cfg.nmax := by omega
  by_cases hlen : s.vlen c = s.vlen k
  · obtain ⟨s1, h1, hxor⟩ := runCommand_xor_combined s p c k hc hnc hlen
    have hframe := runCommand_xor_sameButVector h1
    have hcap1 : (s1.vlen p).toNat ≤ s1.cfg.nmax := by rwa [hxor.vlen, hxor.cfg]
    refine ⟨s1, h1, fun h => absurd h hcap, fun _ _ hne => absurd hlen hne, fun _ _ => ⟨hxor.completed.err, ?_⟩⟩
    by_cases h8 : (s.vlen c).toNat % 8 = 0
    · obtain ⟨s2, h2, hdec⟩ := runCommand_decode_decoded s1 p (hxor.cfg ▸ hc) hcap1 (hxor.vlen ▸ h8)
      refine ⟨s2, h2, fun hne => absurd h8 hne, fun _ => ⟨hdec.completed.err, hxor.vlen ▸ hdec.tlen, fun j hj => ?_⟩⟩
      rw [hdec.text j (hxor.vlen.symm ▸ hj)]
      refine ⟨s1.toNat_decodeWordAt_lt p j, fun m hm => ?_⟩
      calc bits8 (s1.decodeWordAt p j) m = s1.vbit p (8 * j + m) := s1.bits8_decodeWordAt p j m hm
        _ = (s.vbit c (8 * j + m) ^^ s.vbit k (8 * j + m)) := hxor.vbit _ (by omega)
    · refine ⟨_, runCommand_decode_decoding s1 p hcap1 (hxor.vlen ▸ h8), fun _ => ⟨rfl, hframe.tlen, fun j => ?_, ?_,
        fun i hi => ?_⟩, fun h => absurd h h8⟩
      · rw [State.fail_text, State.issue_text, hframe.text hc]
      · rw [State.fail_vlen, State.issue_vlen, hxor.vlen]
      · rw [State.fail_vbit, State.issue_vbit, hxor.vbit i hi]
  · exact ⟨_, runCommand_xor_length s p c k hnc hnk hlen, fun h => absurd h hcap, fun _ _ _ => rfl,
      fun _ h => absurd h hlen⟩

/-! ### ENCRYPT, then DECRYPT -/

/-- A character is its group of bits (R11). -/
theorem eq_of_bits8_eq {x y : Word} (hx : x.toNat ≤ 255) (hy : y.toNat ≤ 255) (h : ∀ m, m < 8 → bits8 x m = bits8 y m) :
    x = y := by
  rw [← setWidth_setWidth_of_le_255 x hx, ← setWidth_setWidth_of_le_255 y hy, ← val8_bits8, ← val8_bits8, val8_congr _ _ h]

/-- Settles O60: ENCRYPT ends with equal lengths 8 TLEN in Vc and Vk, so DECRYPT succeeds, and in the exclusive-or of the two
the key cancels. -/
theorem cipherRoundTrip : Obligations.CipherRoundTrip := by
  intro s p k c q hc hpk hck hn hb hdraw
  obtain ⟨⟨e, src⟩, he⟩ := Option.isSome_iff_exists.1 hdraw
  obtain ⟨s1, s2, s3, h1, h2, h3, herr1, herr2, herr3, hlenk, hlenc, -, -, -, hbits, -⟩ :=
    encryptSuccess s p k c e src hc hpk hck hn hb he
  have hcfg2 := runCommand_cfg h2
  have hcfg : s3.cfg = s.cfg := calc
    s3.cfg = s2.cfg := runCommand_cfg h3
    _ = s1.cfg := hcfg2
    _ = s.cfg := runCommand_cfg h1
  have hvlen : (s3.vlen c).toNat = 8 * s.tlen.toNat := by rw [hlenc, hlenk]
  have hcap : (s3.vlen c).toNat ≤ s3.cfg.nmax := by
    rw [hvlen, hcfg, ← eight_mul_tmaxOf hc]
    omega
  obtain ⟨s4, h4, -, -, hsucc⟩ := decryptOutcome s3 c k q (hcfg ▸ hc)
  obtain ⟨herr4, s5, h5, -, hdec⟩ := hsucc hcap hlenc
  obtain ⟨herr5, htlen, htext⟩ := hdec (by omega)
  refine ⟨s1, s2, s3, s4, s5, h1, h2, h3, h4, h5, herr1, herr2, herr3, herr4, herr5,
    BitVec.eq_of_toNat_eq (by omega), fun j hj => ?_⟩
  obtain ⟨hlt, hchar⟩ := htext j (by omega)
  refine eq_of_bits8_eq (by omega) (hb j hj) fun m hm => ?_
  obtain ⟨hplain, hcipher⟩ := hbits (8 * j + m) (by omega)
  calc bits8 (s5.text j) m = (s3.vbit c (8 * j + m) ^^ s3.vbit k (8 * j + m)) := hchar m hm
    _ = s1.vbit p (8 * j + m) := by rw [hcipher, Bool.xor_assoc, Bool.xor_self, Bool.xor_false]
    _ = bits8 (s.text j) m := by rw [hplain, bits8, show (8 * j + m) / 8 = j by omega, show (8 * j + m) % 8 = m by omega]

end Sys2Proof.Machine
end

section
/-! PROOFS. Issue, completion and the outcome codes (spec/60_exceptions.md R106 to R112): what a failed command leaves, the
codes of each command, and the engine's turn on a legal and on an illegal word. -/

namespace Sys2Proof.Machine

/-! ### A command that fails -/

/-- A command answers a failure, a success, or, in the wait for the entropy source, the state it was given (R87, R107). -/
theorem exec_fail_or_success (i : Instr) (s t : State) (h : exec i s = .next t) :
    (∃ code info, t = s.fail code info) ∨ t.err = 0 ∨ t = s := by
  cases i with
  | encode d =>
    obtain ⟨-, rfl⟩ | ⟨-, j, -, rfl⟩ | ⟨-, -, rfl⟩ := execEncode_cases d s t h
    · exact .inl ⟨_, _, rfl⟩
    · exact .inl ⟨_, _, rfl⟩
    · exact .inr (.inl rfl)
  | decode a =>
    obtain ⟨-, rfl⟩ | ⟨-, -, rfl⟩ | ⟨-, -, rfl⟩ := execDecode_cases a s t h
    · exact .inl ⟨_, _, rfl⟩
    · exact .inl ⟨_, _, rfl⟩
    · exact .inr (.inl rfl)
  | keygen d =>
    obtain ⟨-, rfl⟩ | ⟨-, -, rfl⟩ | ⟨-, e, src, -, rfl⟩ := execKeygen_cases d s t h
    · exact .inl ⟨_, _, rfl⟩
    · exact .inr (.inr rfl)
    · exact .inr (.inl rfl)
  | xor d a b =>
    obtain ⟨-, rfl⟩ | ⟨-, -, -, rfl⟩ | ⟨-, -, rfl⟩ := execXor_cases d a b s t h
    · exact .inl ⟨_, _, rfl⟩
    · exact .inl ⟨_, _, rfl⟩
    · exact .inr (.inl rfl)

/-- Settles O39: with ERR = 0 before, an answer with ERR != 0 is a failure, which is an update of the status alone. -/
theorem failureIsAllOrNothing : Obligations.FailureIsAllOrNothing := by
  intro i s t hs h herr
  obtain ⟨code, info, rfl⟩ | hok | rfl := exec_fail_or_success i s t h
  · exact ⟨rfl, rfl, rfl⟩
  · exact absurd hok herr
  · exact absurd hs herr

/-! ### The outcome codes -/

/-- The index ENCODE reports fits ERRINFO, whatever TLEN is (R72). -/
theorem State.toNat_ofNat_firstBad (s : State) (j : Nat) (hj : s.firstBad = some j) : (BitVec.ofNat 32 j).toNat = j := by
  obtain ⟨hlt, -⟩ := (s.firstBad_eq_some j).1 hj
  exact Nat.mod_eq_of_lt (hlt.trans s.tlen.isLt)

/-- Settles O40: the code of each case a command's completion can be. -/
theorem outcomeCodes : Obligations.OutcomeCodes := by
  intro i s t h hidle hbusy
  cases i with
  | encode d =>
    obtain ⟨-, rfl⟩ | ⟨-, j, hj, rfl⟩ | ⟨-, -, rfl⟩ := execEncode_cases d s t h
    · exact .inr (.inr ⟨rfl, rfl⟩)
    · obtain ⟨hlt, hbad, -⟩ := (s.firstBad_eq_some j).1 hj
      refine .inr (.inl ⟨rfl, ?_⟩)
      rw [State.fail_errinfo, s.toNat_ofNat_firstBad j hj]
      exact ⟨hbad, hlt⟩
    · exact .inl ⟨rfl, rfl⟩
  | decode a =>
    obtain ⟨-, rfl⟩ | ⟨-, -, rfl⟩ | ⟨-, -, rfl⟩ := execDecode_cases a s t h
    · exact ⟨.inr (.inr rfl), rfl⟩
    · exact ⟨.inr (.inl rfl), rfl⟩
    · exact ⟨.inl rfl, rfl⟩
  | keygen d =>
    obtain ⟨-, rfl⟩ | ⟨-, -, rfl⟩ | ⟨-, e, src, -, rfl⟩ := execKeygen_cases d s t h
    · exact ⟨.inr rfl, rfl⟩
    · exact nomatch hidle.symm.trans hbusy
    · exact ⟨.inl rfl, rfl⟩
  | xor d a b =>
    obtain ⟨-, rfl⟩ | ⟨-, -, -, rfl⟩ | ⟨-, -, rfl⟩ := execXor_cases d a b s t h
    · exact ⟨.inr (.inr rfl), rfl⟩
    · exact ⟨.inr (.inl rfl), rfl⟩
    · exact ⟨.inl rfl, rfl⟩

/-- Settles O38: the length check of each command comes first. -/
theorem capacityOutcome : Obligations.CapacityOutcome := fun s d a b =>
  ⟨execEncode_capacity d s, execDecode_capacity a s, execKeygen_capacity d s, execXor_capacity d a b s,
    s.failedWith_fail _ _, rfl⟩

/-! ### Issue -/

/-- Settles O19: CMD is a target whose write issues, and a block with a command in flight refuses every write. -/
theorem issueCommand : Obligations.IssueCommand := fun s v =>
  ⟨fun hidle => (s.busWrite_eq_some _ _ v).2 ⟨hidle, .cmd, rfl, rfl⟩,
    fun hbusy => s.busWrite_busy hbusy _ v⟩

/-! ### The engine's turn -/

theorem engineTurn_of_decode_ok (s : State) (i : Instr) (hb : s.busy = true) (hi : decodeWord s.cmd = .ok i) :
    engineTurn s = exec i s := by
  rw [engineTurn, if_pos hb, hi]

theorem engineTurn_of_decode_error (s : State) (e : Illegal) (hb : s.busy = true) (he : decodeWord s.cmd = .error e) :
    engineTurn s = .next (s.fail .illegal 0) := by
  rw [engineTurn, if_pos hb, he]

/-- With a command in flight and the engine's turn first, the step is the engine's, in the state without that turn. -/
theorem step_engine_of_busy (s : State) (ts : List Turn) (hb : s.busy = true) (hsched : s.sched = .engine :: ts) :
    step s = engineTurn { s with sched := ts } := by
  simp [step, nextStep, s.final_eq_false_of_busy hb, hsched, takeTurn]

/-- Settles O41: the step is the engine's turn, which fails on an illegal word. -/
theorem illegalOutcome : Obligations.IllegalOutcome := by
  intro s ts e hb he hsched
  exact ⟨_, (step_engine_of_busy s ts hb hsched).trans (engineTurn_of_decode_error _ e hb he), State.failedWith_fail _ _ _⟩

/-- A 32-bit word is placed as it is, with the engine's turn first. -/
theorem State.withFetchWord_toNat (s : State) (w : Word) :
    s.withFetchWord 32 w.toNat = { s.issue w with sched := .engine :: s.sched } := by
  rw [State.withFetchWord, State.placeCommand, Nat.mod_eq_of_lt w.isLt, BitVec.ofNat_toNat, BitVec.setWidth_eq]

/-- Settles O42: in each case the step is the engine's turn, and the word in CMD decodes to i. -/
theorem stepRunsDecoded : Obligations.StepRunsDecoded := by
  refine ⟨fun s ts i hb hi hsched => ?_, fun s i hready hi hsched => ?_, fun s i => ?_⟩
  · exact (step_engine_of_busy s ts hb hsched).trans (engineTurn_of_decode_ok _ i hb hi)
  · have hb : s.busy = true := (Bool.and_eq_true_iff.1 hready).1
    rw [step_eq_engineTurn s hready hb hsched, engineTurn_of_decode_ok s i hb hi]
  · rw [s.withFetchWord_toNat, step_engine_of_busy _ s.sched rfl rfl]
    exact engineTurn_of_decode_ok (s.issue (encodeWord i)) i rfl (decodeWord_encodeWord i)

end Sys2Proof.Machine
end

section
/-! PROOFS. HALT and the end of the run (spec/70_reset_and_hazards.md R140). -/

namespace Sys2Proof.Machine

/-- The state HALT leaves is final exactly when nothing is in flight: what it records is BUSY (R140). -/
theorem State.hostStmt_halt (s : State) :
    ∃ t, s.hostStmt .halt = .next t ∧ t = { s with host := { s.host with status := t.host.status } } ∧
      (t.final = true ↔ s.busy = false) := by
  refine ⟨_, rfl, rfl, ?_⟩
  cases s.busy with
  | false => simp [State.final]
  | true => simp [State.final]

/-- Settles O49: a running host's turn at HALT is that statement, and a step looks first whether the state is final. -/
theorem haltIsFinalWhenIdle : Obligations.HaltIsFinalWhenIdle := by
  refine ⟨fun s hr hq => ?_, step_of_final⟩
  rw [takeTurn_host_of_stmt s _ hr hq]
  exact s.hostStmt_halt

end Sys2Proof.Machine
end
